-- ==== Sys2Proof/Word.lean ====
section
/-! DEFINITION. The value types of the hardware: levels, values that may be unknown, bytes, DDRAM addresses,
transmission words, and the operand types of SHIFT and of the Bit Shifter (`00_scope.md` R8 to R12). -/

namespace Sys2Proof

/-- A byte: 8 bits, unsigned (R8). -/
abbrev Byte := BitVec 8

/-- A DDRAM address: 7 bits (R10, R50). -/
abbrev DdramAddr := BitVec 7

/-- The level of an output line, low or high (R9). -/
inductive Level where
  | L
  | H
deriving DecidableEq, Repr, Inhabited

/-- true drives `H`, false drives `L`, and a data bit 1 is `H` (R9, decision D3; log 9). -/
def Level.ofBool (b : Bool) : Level := if b then .H else .L

/-- A value that may be unknown. `unknown` is the spec's own value of a line, of a shift-register bit or of a
display-side register that nothing has defined (R12, R20, R21, R33, R183): reading it yields no value (log 1). -/
inductive Known (α : Type) where
  | unknown
  | is (v : α)
deriving DecidableEq, Repr

/-- A transmission word `T = rs ++ byte`: the register-select flag and the byte shifted out (R80). -/
structure TWord where
  rs : Bool
  byte : Byte
deriving DecidableEq, Repr

/-- What SHIFT moves (R145). -/
inductive ShiftTarget where
  | display
  | cursor
deriving DecidableEq, Repr

/-- Which way SHIFT moves it (R145). -/
inductive Direction where
  | left
  | right
deriving DecidableEq, Repr

/-- The order argument of shift_out (R6, R111). -/
inductive BitOrder where
  | msbFirst
  | lsbFirst
deriving DecidableEq, Repr

end Sys2Proof
end

