-- ==== Sys2Proof/Config.lean ====
section
/-! DEFINITION. The configuration of `00_scope.md` R6: what is fixed for the machine before the first operation and
never written afterwards (R28). -/

namespace Sys2Proof

/-- LATCH_VARIANT: one latch pulse and then the settle wait, or two latch pulses and no settle wait (R131, R132). -/
inductive LatchVariant where
  | single
  | double
deriving DecidableEq, Repr, Inhabited

/-- STROBE_SAMPLING: when the physical display samples its inputs, in the two readings that R189 tabulates
(OPEN, R188; log 16). It is an argument of the functions that use it, so that a claim holds for both. -/
inductive StrobeSampling where
  /-- at `W(LAT, L)`, after the commit at `W(LAT, H)` -/
  | falling
  /-- at `W(LAT, H)`, before SR.out changes -/
  | risingBeforeCommit
deriving DecidableEq, Repr

/-- The three durations the block requests (R6, R212). -/
structure Timing where
  /-- T_BIT_US: data settle, clock-high phase, clock-low phase -/
  tBitUs : Nat
  /-- T_LATCH_US: latch-high phase, latch-low phase -/
  tLatchUs : Nat
  /-- T_SETTLE_MS: the post-write settle of the single variant -/
  tSettleMs : Nat
deriving DecidableEq, Repr

/-- RESET_LINES: the level of each line before the first operation (R6, D11). -/
structure ResetLines where
  ser : Known Level
  sck : Known Level
  lat : Known Level
  rs : Known Level
deriving DecidableEq, Repr

/-- LATCH_VARIANT is OPEN: no value of it can be proved, so every claim holds for both (R132, D5; log 7). -/
opaque Config.latchVariant : LatchVariant

/-- The source's literals, 1 us, 1 us and 1 ms, which nobody has audited (R6, U14; log 8). -/
def Config.timing : Timing := ⟨1, 1, 1⟩

/-- RESET_LINES at its default: all four lines unknown (R6, R33). -/
def Config.resetLines : ResetLines := ⟨.unknown, .unknown, .unknown, .unknown⟩

/-- BITS: bits per transmission, fixed (R6). -/
def Config.bits : Nat := 8

/-- ROWS (R6). -/
def Config.rows : Nat := 2

/-- COLS (R6). -/
def Config.cols : Nat := 16

/-- The greatest DDRAM address, of ADDR_BITS = 7 bits (R6). -/
def Config.maxAddr : Nat := 0x7F

/-- FUNCTION_SET_BYTE: the one FunctionSet value (R6). -/
def Config.functionSetByte : Byte := 0x38

end Sys2Proof
end

