-- ==== Sys2Proof/Syntax.lean ====
section
/-! DEFINITION. The instructions: the tagged value DisplayInstruction of `00_scope.md` R12, one constructor for each
row of `spec/opcode_table.json`. -/

namespace Sys2Proof

/-- DisplayInstruction (R12, R140). -/
inductive Instr where
  /-- FUNCTION_SET (R141) -/
  | functionSet
  /-- CLEAR (R142) -/
  | clear
  /-- HOME (R143) -/
  | home
  /-- POWER_CONTROL (R144) -/
  | powerControl (displayOn cursorOn blinkOn : Bool)
  /-- SHIFT (R145) -/
  | shift (target : ShiftTarget) (direction : Direction)
  /-- SET_ADDRESS (R146). The argument is a number: one above 0x7F is offered and rejected (R202; log 17). -/
  | setAddress (addr : Nat)
  /-- WRITE_CHAR (R147) -/
  | writeChar (ch : Byte)
deriving DecidableEq, Repr

end Sys2Proof
end

