-- ==== Sys2Proof/WellFormed.lean ====
section
/-! DEFINITION. When an instruction is within its domain (`43_display_instructions.md` R140). -/

namespace Sys2Proof

/-- Every instruction is within its domain but a SET_ADDRESS whose address exceeds 0x7F (R140, R146). -/
def Instr.wellFormed : Instr → Bool
  | .functionSet => true
  | .clear => true
  | .home => true
  | .powerControl _ _ _ => true
  | .shift _ _ => true
  | .setAddress addr => decide (addr ≤ Config.maxAddr)
  | .writeChar _ => true

end Sys2Proof
end

