-- ==== Sys2Proof/Decode.lean ====
section
/-! DEFINITION. The 9-bit transmission word, its decoder and its encoder, and the opcode table
(`30_encoding.md` R80 to R87, `43_display_instructions.md` R140). -/

namespace Sys2Proof

/-- What a word decodes to: an instruction, or a reserved instruction byte by name (R85, R87). -/
inductive Decoded where
  | instr (i : Instr)
  | reserved (b : Byte)
deriving DecidableEq, Repr

/-- The word as 9 bits: `T[8]` is rs and `T[7:0]` the byte (R80). -/
def TWord.bits (T : TWord) : BitVec 9 := (BitVec.ofBool T.rs ++ T.byte).cast rfl

/-- The word that 9 bits are (R80). -/
def TWord.ofBits (w : BitVec 9) : TWord := ⟨w.getLsbD 8, w.setWidth 8⟩

/-- A boolean used as a number: 1 when true, 0 when false (R8). -/
def boolBit (b : Bool) : Byte := if b then 1 else 0

/-- `t = (target = display)` (R145). -/
def ShiftTarget.isDisplay : ShiftTarget → Bool
  | .display => true
  | .cursor => false

/-- `r = (direction = right)` (R145). -/
def Direction.isRight : Direction → Bool
  | .right => true
  | .left => false

/-- The decoder of R85, total on every word; format D first, so 1:0x38 is a character. -/
def decodeWord (T : TWord) : Decoded :=
  if T.rs then .instr (.writeChar T.byte)
  else if T.byte.getLsbD 7 then .instr (.setAddress (T.byte.extractLsb' 0 7).toNat)
  else if T.byte = Config.functionSetByte then .instr .functionSet
  else if T.byte.extractLsb' 4 4 = 0b0001 ∧ T.byte.extractLsb' 0 2 = 0 then
    .instr (.shift (if T.byte.getLsbD 3 then .display else .cursor)
      (if T.byte.getLsbD 2 then .right else .left))
  else if T.byte.extractLsb' 3 5 = 0b00001 then
    .instr (.powerControl (T.byte.getLsbD 2) (T.byte.getLsbD 1) (T.byte.getLsbD 0))
  else if T.byte = 0x02 then .instr .home
  else if T.byte = 0x01 then .instr .clear
  else .reserved T.byte

/-- `decode` of the 9-bit word (R85). -/
def decode (w : BitVec 9) : Decoded := decodeWord (TWord.ofBits w)

/-- The encoder (R140, R83): `rs` and the byte of an instruction. Outside the domain of SET_ADDRESS it is not used:
`issue` rejects such an argument first (R146). -/
def encode : Instr → TWord
  | .functionSet => ⟨false, Config.functionSetByte⟩
  | .clear => ⟨false, 0x01⟩
  | .home => ⟨false, 0x02⟩
  | .powerControl d c b => ⟨false, 0x08 ||| (boolBit d <<< 2) ||| (boolBit c <<< 1) ||| boolBit b⟩
  | .shift t r => ⟨false, 0x10 ||| (boolBit t.isDisplay <<< 3) ||| (boolBit r.isRight <<< 2)⟩
  | .setAddress addr => ⟨false, 0x80 ||| BitVec.ofNat 8 addr⟩
  | .writeChar ch => ⟨true, ch⟩

/-- One row of the opcode table (R84): `pattern` is the table's "match". -/
structure OpcodeRow where
  mnemonic : String
  pattern : BitVec 9
  mask : BitVec 9
deriving DecidableEq, Repr

/-- A word `T` selects the row with `T & mask = match` (R84). -/
def OpcodeRow.selects (r : OpcodeRow) (w : BitVec 9) : Bool := w &&& r.mask == r.pattern

/-- The table's row of an instruction (R84, `opcode_table.json`). -/
def Instr.row : Instr → OpcodeRow
  | .functionSet => ⟨"FUNCTION_SET", 0x038, 0x1FF⟩
  | .clear => ⟨"CLEAR", 0x001, 0x1FF⟩
  | .home => ⟨"HOME", 0x002, 0x1FF⟩
  | .powerControl _ _ _ => ⟨"POWER_CONTROL", 0x008, 0x1F8⟩
  | .shift _ _ => ⟨"SHIFT", 0x010, 0x1F3⟩
  | .setAddress _ => ⟨"SET_ADDRESS", 0x080, 0x180⟩
  | .writeChar _ => ⟨"WRITE_CHAR", 0x100, 0x100⟩

/-- The seven rows in the table's order (R84). -/
def opcodeTable : List OpcodeRow :=
  [Instr.functionSet.row, Instr.clear.row, Instr.home.row, (Instr.powerControl false false false).row,
    (Instr.shift .cursor .left).row, (Instr.setAddress 0).row, (Instr.writeChar 0).row]

/-- The instruction the decoder reads from a table word: the low `nbits` bits of `w`, every higher bit 0. The word
has 9 bits and no more (R80, R90), so a number that needs a tenth bit is no word (log 22). -/
def decodeTableWord (nbits w : Nat) : Option Instr :=
  if w % 2 ^ nbits < 2 ^ 9 then
    match decode (BitVec.ofNat 9 (w % 2 ^ nbits)) with
    | .instr i => some i
    | .reserved _ => none
  else none

end Sys2Proof
end

