-- ==== Sys2Proof/Machine/Operation.lean ====
section
/-! DEFINITION. The events, the faults and the operations of the host interface, as values (`00_scope.md` R9 to R11,
`30_encoding.md` R91, `60_exceptions.md` R201, R202). -/

namespace Sys2Proof.Machine

/-- The four output lines (R9). -/
inductive LineName where
  | ser
  | sck
  | lat
  | rs
deriving DecidableEq, Repr

/-- A requested duration with its unit (R11, R212). -/
inductive Duration where
  | us (n : Nat)
  | ms (n : Nat)
deriving DecidableEq, Repr

/-- An event: `W(line, level)` or `D(duration)` (R11). -/
inductive Event where
  | write (line : LineName) (level : Level)
  | wait (d : Duration)
deriving DecidableEq, Repr

/-- The faults of the hardware, delivered to the host as the result of a call (R200, R201, R202). They are data of a
next state, not stops of the machine: the run goes on (R207; log 6). -/
inductive HostFault where
  /-- raised by set_cursor when col > 15 or row > 1; carries the offending pair (R201) -/
  | cursorOutOfRange (col row : Nat)
  /-- raised by set_address when addr > 0x7F; carries the offending value (R202) -/
  | addressOutOfRange (addr : Nat)
deriving DecidableEq, Repr

/-- The fault's code (R201, R202, decision D12). -/
def HostFault.code : HostFault → Nat
  | .cursorOutOfRange _ _ => 1
  | .addressOutOfRange _ => 2

/-- The eight host operations, and `send` of the channel level (R91, R88; log 19). Addresses, cursor positions and
character codes are numbers, so that a value outside its range can be offered (log 17). -/
inductive Operation where
  | initializeDisplay
  | clear
  | home
  | powerControl (displayOn cursorOn blinkOn : Bool)
  | shift (target : ShiftTarget) (direction : Direction)
  | setAddress (addr : Nat)
  | setCursor (col row : Nat)
  | print (text : List Nat)
  | send (registerSelect : Bool) (byte : Byte)
deriving DecidableEq, Repr

/-- How the model performs a call: in one step, the normative big step, or one event a step through SEQ, the small
step derived from it (R24; log 5). -/
inductive Pace where
  | whole
  | eventwise
deriving DecidableEq, Repr

/-- A call the host has made and the block has not taken yet (R170; log 4). -/
structure Call where
  op : Operation
  pace : Pace
deriving DecidableEq, Repr

end Sys2Proof.Machine
end

