-- ==== Sys2Proof/Machine/State.lean ====
section
/-! DEFINITION. The whole state of the machine (`10_state.md` R20) as plain data, the reasons a step can stop, and the
state after reset (`10_state.md` R33). -/

namespace Sys2Proof.Machine

/-- DDRAM as a list of (address, byte) cells: addresses strictly rising, all below 0x80. A byte that is not listed is
unknown (R33; log 13). -/
abbrev Memory := List Host.Cell

/-- Eight bits of the shift register, each possibly unknown; `qa` is bit 0 and `qh` bit 7 (R31). -/
structure SrBits where
  qh : Known Level
  qg : Known Level
  qf : Known Level
  qe : Known Level
  qd : Known Level
  qc : Known Level
  qb : Known Level
  qa : Known Level
deriving DecidableEq, Repr

/-- Every bit unknown (R33, R183). -/
def SrBits.unknown : SrBits :=
  ⟨.unknown, .unknown, .unknown, .unknown, .unknown, .unknown, .unknown, .unknown⟩

/-- The bus width of FunctionSet: one legal value (R30). -/
inductive BusWidth where
  | eightBit
deriving DecidableEq, Repr

/-- The number of display lines of FunctionSet: one legal value (R30). -/
inductive DisplayLines where
  | two
deriving DecidableEq, Repr

/-- The font of FunctionSet: one legal value (R30). -/
inductive Font where
  | dots5x8
deriving DecidableEq, Repr

/-- One Shift received by the display: one step of the display or of the cursor (R30, R145). -/
structure ShiftMove where
  target : ShiftTarget
  direction : Direction
deriving DecidableEq, Repr

/-- How much of initialize the display has received: the words of it that have come one after the other, and `done`
once all four have (R160, R234; log 26). -/
inductive InitProgress where
  | notStarted
  | functionSet
  | clear
  | home
  | done
deriving DecidableEq, Repr

/-- The display-side fields of R30 and the DDRAM of R50. -/
structure Display where
  /-- what the model knows of the display's configuration by initialize; no field of the spec's (log 26) -/
  progress : InitProgress
  busWidth : Known BusWidth
  displayLines : Known DisplayLines
  font : Known Font
  displayOn : Known Bool
  cursorOn : Known Bool
  blinkOn : Known Bool
  /-- the address register AC (R190) -/
  ac : Known DdramAddr
  /-- the shift state: the moves made since it was last left unknown (log 15) -/
  shiftMoves : List ShiftMove
  ddram : Memory
deriving DecidableEq, Repr

/-- Every display-side field unknown, and no word of initialize received (R33, U11). -/
def Display.unknown : Display :=
  { progress := .notStarted, busWidth := .unknown, displayLines := .unknown, font := .unknown,
    displayOn := .unknown, cursorOn := .unknown, blinkOn := .unknown,
    ac := .unknown, shiftMoves := [], ddram := [] }

/-- SEQ: idle, or the index of the next event of the operation in progress (R24). -/
inductive SeqPos where
  | idle
  | pos (n : Nat)
deriving DecidableEq, Repr

/-- What is recorded beside an event of a job: a word starts at it, or a word has been delivered once it is
performed (R130, R187; log 11). -/
inductive Note where
  | plain
  | begins (T : TWord)
  | delivers (T : TWord)
deriving DecidableEq, Repr

/-- One element of the event list of an operation in progress (R24). -/
structure JobItem where
  event : Event
  note : Note
deriving DecidableEq, Repr

/-- The whole state of the machine (R20). -/
structure State where
  /-- LINE[SER] (R21) -/
  ser : Known Level
  /-- LINE[SCK] (R21) -/
  sck : Known Level
  /-- LINE[LAT] (R21) -/
  lat : Known Level
  /-- LINE[RS] (R21) -/
  rs : Known Level
  /-- SEQ (R24) -/
  seq : SeqPos
  /-- the event list of the operation in progress, empty when there is none (R24; log 5) -/
  job : List JobItem
  /-- TRACE (R26) -/
  trace : List Event
  /-- WORDS (R26) -/
  words : List TWord
  /-- SR.shift (R31) -/
  srShift : SrBits
  /-- SR.out (R31) -/
  srOut : SrBits
  /-- the display-side registers and DDRAM (R30, R50) -/
  display : Display
  /-- the words delivered to the display (R187) -/
  delivered : List TWord
  /-- the host operations accepted (R7 level 3; log 24) -/
  accepted : List Operation
  /-- the host operations rejected (R7 level 3; log 24) -/
  rejected : List Operation
  /-- the faults delivered to the host, in order (R200, R207; log 24) -/
  faults : List HostFault
  /-- the host's calls not taken yet (R170; log 4) -/
  port : List Call
deriving DecidableEq, Repr

/-- The reasons the machine stops with a fault. The hardware has none: its two faults are delivered to the host in a
next state (R200, R203, R207). -/
inductive Fault where
  /-- raised by step when SEQ points past the end of the event list: there is no event to perform. No run reaches
  such a state. Safe: the spec gives no behaviour there (log 23). -/
  | sequencerOverrun
deriving DecidableEq, Repr

/-- The refusals at the model's boundary (R204). -/
inductive Refusal where
  /-- raised by no arm of exec: every instruction has its meaning. Safe. -/
  | notModelled (mnemonic : String)
  /-- raised by every meaning and every operation started while another is in progress (R25, R204, U12). Safe. -/
  | operationInProgress
  /-- raised by a send that would start while SCK or LAT is not known to be L (R204, R232; log 2). Safe. -/
  | bootRequirement
  /-- raised by print for a character code above 255 (R167, R204, D10). Safe. -/
  | wideCharacter (code : Nat)
  /-- raised by shift_out for a bit count other than 8 (R56, R204, D21). Safe. -/
  | bitCount (bits : Nat)
deriving DecidableEq, Repr

/-- The state after reset, for given levels of the lines (R33, RESET_LINES). -/
def State.resetWith (lines : ResetLines) : State :=
  { ser := lines.ser, sck := lines.sck, lat := lines.lat, rs := lines.rs,
    seq := .idle, job := [], trace := [], words := [],
    srShift := SrBits.unknown, srOut := SrBits.unknown, display := Display.unknown,
    delivered := [], accepted := [], rejected := [], faults := [], port := [] }

/-- The state after reset: RESET_LINES at its default (R33, R230). -/
def State.reset : State := State.resetWith Config.resetLines

end Sys2Proof.Machine
end

