-- ==== Sys2Proof/Machine/Operands.lean ====
section
/-! DEFINITION. The operand forms: bits of a byte and their order on the line (`00_scope.md` R8, `40_bit_shifter.md`
R111), and the cursor-address translation (`20_memory.md` R58, R59). -/

namespace Sys2Proof.Machine

/-- `bit(b, k)` as a level (R8, R9). -/
def bitLevel (b : Byte) (k : Nat) : Level := Level.ofBool (b.getLsbD k)

/-- The bit index sent at shift step `i`: `7 - i` most significant first, `i` least significant first (R111). -/
def bitIndex (order : BitOrder) (i : Nat) : Nat :=
  match order with
  | .msbFirst => 7 - i
  | .lsbFirst => i

/-- CURSOR_TABLE, indexed row first (R58). -/
def cursorTable : List (List DdramAddr) :=
  [[0x00, 0x01, 0x02, 0x03, 0x04, 0x05, 0x06, 0x07, 0x08, 0x09, 0x0A, 0x0B, 0x0C, 0x0D, 0x0E, 0x0F],
   [0x40, 0x41, 0x42, 0x43, 0x44, 0x45, 0x46, 0x47, 0x48, 0x49, 0x4A, 0x4B, 0x4C, 0x4D, 0x4E, 0x4F]]

/-- `CURSOR_TABLE[row][col]`, for a position inside the table (R58). -/
def cursorEntry (col row : Nat) : DdramAddr := (cursorTable.getD row []).getD col 0

/-- The result of the translation: a 7-bit address, or the fault it raises (R59). -/
inductive Translation where
  | addr (a : DdramAddr)
  | raises (f : HostFault)
deriving DecidableEq, Repr

/-- `translate(col, row)`: the check `col > 15 or row > 1` comes first, then the table (R59). -/
def translateCursor (col row : Nat) : Translation :=
  if Config.cols ≤ col ∨ Config.rows ≤ row then .raises (.cursorOutOfRange col row)
  else .addr (cursorEntry col row)

/-- The first character code of a text that is not one byte (R167, R204). -/
def firstWide (text : List Nat) : Option Nat := text.find? (fun c => decide (255 < c))

/-- The WRITE_CHAR of each character, in order (R167). -/
def charInstrs (text : List Nat) : List Instr := text.map (fun c => Instr.writeChar (BitVec.ofNat 8 c))

end Sys2Proof.Machine
end

