-- ==== Sys2Proof/Machine/Display.lean ====
section
/-! DEFINITION. The downstream display, as far as the spec's own words go (`10_state.md` R30, `45_downstream_devices.md`
R187, R190, R191), with the operations on its DDRAM (`20_memory.md` R50 to R53). -/

namespace Sys2Proof.Machine

/-- The canonical form of DDRAM: addresses strictly rising and all of 7 bits (R50). -/
abbrev Memory.wf (m : Memory) : Prop := m.Pairwise (fun c d => c.1 < d.1) ∧ ∀ c ∈ m, c.1 < 0x80

/-- The byte at an address: none where it is unknown (R33; log 13). -/
def Memory.read : Memory → Nat → Option Byte
  | [], _ => none
  | (k, v) :: m, a => if k = a then some v else Memory.read m a

/-- MemWrite(addr, 1, v) (R10): the byte at `a` becomes `v`. -/
def Memory.write : Memory → Nat → Byte → Memory
  | [], a, v => [(a, v)]
  | (k, x) :: m, a, v =>
    if a < k then (a, v) :: (k, x) :: m
    else if a = k then (a, v) :: m
    else (k, x) :: Memory.write m a v

/-- DDRAM with every byte unknown (R33). -/
def Memory.unknown : Memory := []

/-- An address that is a cell of the 2 by 16 geometry (R51). -/
def isCell (a : DdramAddr) : Bool := decide (a.toNat < 0x10) || (decide (0x40 ≤ a.toNat) && decide (a.toNat < 0x50))

/-- AC after a data write at the cell `a`: the next address within the row, and unknown after the last column,
which the source does not give (R52, R190; log 12). -/
def acAfter (a : DdramAddr) : Known DdramAddr := if isCell (a + 1) then .is (a + 1) else .unknown

/-- AC, DDRAM and the shift state left unknown: the source gives Clear and Home no effect on them but their names
(R30, R190; log 12). -/
def Display.clearOrHome (d : Display) : Display :=
  { d with ac := .unknown, ddram := Memory.unknown, shiftMoves := [] }

/-- A delivered WriteChar: the character is stored at AC and AC moves on (R190). Where AC is unknown or no cell,
nothing is known of where the character goes, so AC and DDRAM become unknown (R52, U9; log 12). -/
def Display.storeChar (d : Display) (ch : Byte) : Display :=
  match d.ac with
  | .unknown => { d with ac := .unknown, ddram := Memory.unknown }
  | .is a =>
    if isCell a then { d with ac := acAfter a, ddram := Memory.write d.ddram a.toNat ch }
    else { d with ac := .unknown, ddram := Memory.unknown }

/-- A delivered Shift: one step, which the source does not place; its effect on AC and DDRAM is not given
(R30, R145, R190; log 12, log 15). -/
def Display.shift (d : Display) (target : ShiftTarget) (direction : Direction) : Display :=
  { d with ac := .unknown, ddram := Memory.unknown, shiftMoves := d.shiftMoves ++ [⟨target, direction⟩] }

/-- What an instruction does to a display that initialize has configured (R30, R141 to R147, R190). -/
def Display.act (d : Display) : Instr → Display
  | .functionSet => { d with busWidth := .is .eightBit, displayLines := .is .two, font := .is .dots5x8 }
  | .clear => d.clearOrHome
  | .home => d.clearOrHome
  | .powerControl on cursor blink => { d with displayOn := .is on, cursorOn := .is cursor, blinkOn := .is blink }
  | .shift target direction => d.shift target direction
  | .setAddress addr => { d with ac := .is (BitVec.ofNat 7 addr) }
  | .writeChar ch => d.storeChar ch

/-- The progress of initialize on an instruction: its four instructions in their order lead to `done`, any other
before that starts over, and a FUNCTION_SET begins anew (R160). -/
def InitProgress.after : InitProgress → Instr → InitProgress
  | .done, _ => .done
  | .functionSet, .clear => .clear
  | .clear, .home => .home
  | .home, .powerControl true false false => .done
  | _, .functionSet => .functionSet
  | _, _ => .notStarted

/-- The display on receiving a word (R29, R30, R187, R190). Only initialize configures the display (R234), and what a
word does before it is not in the source, so that the display's state is then unknown (U11). The model's choices here
(log 26): the words of initialize take effect as they arrive, any other word before they are complete leaves the whole
display unknown, and from then on every instruction has its effect. A reserved word has no display-side meaning, so
nothing is known of the display after it, and it waits for initialize again (R87, R191, U7; log 14). -/
def Display.receive (d : Display) (T : TWord) : Display :=
  match decodeWord T with
  | .reserved _ => Display.unknown
  | .instr i =>
    match d.progress.after i with
    | .notStarted => Display.unknown
    | .functionSet => { Display.unknown.act i with progress := .functionSet }
    | p => { d.act i with progress := p }

end Sys2Proof.Machine
end

