-- ==== Sys2Proof/Machine/Flags.lean ====
section
/-! DEFINITION. The block has no status flag, no condition code and no predicate (`10_state.md` R27), so there is no
flag computation. What stands here are the conditions a start depends on: SEQ idle (`10_state.md` R25), the boot
requirement (`70_reset_and_hazards.md` R232) and the argument checks (`60_exceptions.md` R200 to R206). -/

namespace Sys2Proof.Machine

/-- `LINE[SCK] = L` and `LINE[LAT] = L` (R232). -/
def State.booted (s : State) : Bool := s.sck == .is .L && s.lat == .is .L

/-- The fault an operation's arguments raise, from the arguments alone (R200, R206). -/
def Operation.fault : Operation → Option HostFault
  | .initializeDisplay => none
  | .clear => none
  | .home => none
  | .powerControl _ _ _ => none
  | .shift _ _ => none
  | .setAddress addr => if addr > Config.maxAddr then some (.addressOutOfRange addr) else none
  | .setCursor col row =>
    match translateCursor col row with
    | .addr _ => none
    | .raises f => some f
  | .print _ => none
  | .send _ _ => none

/-- The refusal at the model's boundary that an operation's arguments meet (R204): a character wider than a byte. -/
def Operation.refusal : Operation → Option Refusal
  | .initializeDisplay => none
  | .clear => none
  | .home => none
  | .powerControl _ _ _ => none
  | .shift _ _ => none
  | .setAddress _ => none
  | .setCursor _ _ => none
  | .print text => (firstWide text).map Refusal.wideCharacter
  | .send _ _ => none

end Sys2Proof.Machine
end

