-- ==== Sys2Proof/Machine/Ops.lean ====
section
/-! DEFINITION. The named operations every meaning goes through: performing one event, with the shift register's
reaction (`45_downstream_devices.md` R181 to R183); the micro-operations shift_out, latch_pulse and send in the spec's
pseudocode (`40_bit_shifter.md` R110, `41_latch_controller.md` R120, `42_command_channel.md` R130); the rejection of
an operation (`60_exceptions.md` R200, R207); the same transmission as an event list, for the small step
(`10_state.md` R24). -/

namespace Sys2Proof.Machine

/-- The bit shifted in enters at bit 0, the QA side, and bit 7, the QH side, falls out (R181). -/
def SrBits.push (r : SrBits) (bit : Known Level) : SrBits := ⟨r.qg, r.qf, r.qe, r.qd, r.qc, r.qb, r.qa, bit⟩

/-- A byte on the eight bits in its natural order: bit 7 at QH, bit 0 at QA (R54, R184). -/
def SrBits.ofByte (b : Byte) : SrBits :=
  ⟨.is (bitLevel b 7), .is (bitLevel b 6), .is (bitLevel b 5), .is (bitLevel b 4),
    .is (bitLevel b 3), .is (bitLevel b 2), .is (bitLevel b 1), .is (bitLevel b 0)⟩

/-- SR.shift after `W(SCK, v)`: a rising edge shifts SER in, and from an unknown SCK it is unknown whether there was
an edge (R181, R183). -/
def State.shiftAfter (s : State) (v : Level) : SrBits :=
  match v, s.sck with
  | .L, _ => s.srShift
  | .H, .is .L => s.srShift.push s.ser
  | .H, .is .H => s.srShift
  | .H, .unknown => SrBits.unknown

/-- SR.out after `W(LAT, v)`: a rising edge commits SR.shift, and from an unknown LAT it is unknown whether there was
an edge (R182, R183). -/
def State.outAfter (s : State) (v : Level) : SrBits :=
  match v, s.lat with
  | .L, _ => s.srOut
  | .H, .is .L => s.srShift
  | .H, .is .H => s.srOut
  | .H, .unknown => SrBits.unknown

/-- One event: the line takes its level, the shift register reacts, and TRACE grows by the event, whether or not the
level changes (R11, R21, R26, R181, R182). A wait only appends its event (R212). -/
def State.perform (s : State) (e : Event) : State :=
  match e with
  | .write .ser v => { s with ser := .is v, trace := s.trace ++ [e] }
  | .write .sck v => { s with sck := .is v, srShift := s.shiftAfter v, trace := s.trace ++ [e] }
  | .write .lat v => { s with lat := .is v, srOut := s.outAfter v, trace := s.trace ++ [e] }
  | .write .rs v => { s with rs := .is v, trace := s.trace ++ [e] }
  | .wait _ => { s with trace := s.trace ++ [e] }

/-- `set(line, level)` (R10). -/
def State.setLine (s : State) (line : LineName) (v : Level) : State := s.perform (.write line v)

/-- `wait_us(n)` (R10, R212). -/
def State.waitUs (s : State) (n : Nat) : State := s.perform (.wait (.us n))

/-- `wait_ms(n)` (R10, R212). -/
def State.waitMs (s : State) (n : Nat) : State := s.perform (.wait (.ms n))

/-- One bit cycle of shift_out (R110). -/
def State.bitCycle (s : State) (v : Level) : State :=
  (((((s.setLine .ser v).waitUs Config.timing.tBitUs).setLine .sck .H).waitUs Config.timing.tBitUs).setLine
    .sck .L).waitUs Config.timing.tBitUs

/-- The bit cycles of the shift steps listed (R110, R111). -/
def State.shiftSteps (s : State) (b : Byte) (order : BitOrder) : List Nat → State
  | [] => s
  | i :: rest => State.shiftSteps (s.bitCycle (bitLevel b (bitIndex order i))) b order rest

/-- shift_out of 8 bits: steps 0 to 7 (R110). -/
def State.shiftByte (s : State) (b : Byte) (order : BitOrder) : State :=
  s.shiftSteps b order [0, 1, 2, 3, 4, 5, 6, 7]

/-- `shift_out(b, bits, order)`: a bit count other than 8 is refused (R56, R110, R204). -/
def shiftOut (b : Byte) (bits : Nat) (order : BitOrder) (s : State) : Host.Outcome State Fault Refusal :=
  if bits = Config.bits then .next (s.shiftByte b order) else .refused (.bitCount bits)

/-- `latch_pulse()` (R120). -/
def State.latchPulse (s : State) : State :=
  (((s.setLine .lat .H).waitUs Config.timing.tLatchUs).setLine .lat .L).waitUs Config.timing.tLatchUs

/-- `WORDS <- WORDS ++ [(rs, b)]` (R130). -/
def State.recordWord (s : State) (T : TWord) : State := { s with words := s.words ++ [T] }

/-- The word is delivered to the display, once for each send (R187; log 11). -/
def State.deliver (s : State) (T : TWord) : State :=
  { s with display := s.display.receive T, delivered := s.delivered ++ [T] }

/-- The tail of send: the settle wait of the single variant, the second pulse of the double one (R130 to R132). -/
def State.sendTail (s : State) (v : LatchVariant) : State :=
  match v with
  | .single => s.waitMs Config.timing.tSettleMs
  | .double => s.latchPulse

/-- `send(rs, b)` (R130). -/
def State.send (s : State) (T : TWord) : State :=
  (((((s.recordWord T).setLine .rs (Level.ofBool T.rs)).shiftByte T.byte .msbFirst).latchPulse).deliver
    T).sendTail Config.latchVariant

/-- The start of a transmission: only from SEQ idle and only with SCK and LAT low (R25, R135, R204, R232). -/
def transmit (T : TWord) (s : State) : Host.Outcome State Fault Refusal :=
  if s.seq = .idle then
    if s.booted then .next (s.send T) else .refused .bootRequirement
  else .refused .operationInProgress

/-- `issue(instr)`: encode and send (R149). -/
def issue (i : Instr) (s : State) : Host.Outcome State Fault Refusal := transmit (encode i) s

/-- TAKING A FAULT: `raise F(info)`. No event is performed and no state changes; the fault goes to the host (R200,
R207). There is no handler, no saved state and no return instruction: the block is ready for the next operation. -/
def State.raise (s : State) (f : HostFault) : State := { s with faults := s.faults ++ [f] }

/-- The environment's part of the boot: SCK and LAT are low before the first operation (R232; log 3). It is no event
of the block. -/
def State.boot (s : State) : State := { s with sck := .is .L, lat := .is .L }

/-! The same transmission as the event list that SEQ counts through (R24, R133). -/

/-- The six events of a bit (R112). -/
def bitEvents (t : Timing) (v : Level) : List Event :=
  [.write .ser v, .wait (.us t.tBitUs), .write .sck .H, .wait (.us t.tBitUs), .write .sck .L, .wait (.us t.tBitUs)]

/-- The events of shift_out (R112). -/
def shiftOutEvents (t : Timing) (b : Byte) (order : BitOrder) : List Event :=
  [0, 1, 2, 3, 4, 5, 6, 7].flatMap (fun i => bitEvents t (bitLevel b (bitIndex order i)))

/-- The events of latch_pulse (R120, R123). -/
def latchPulseEvents (t : Timing) : List Event :=
  [.write .lat .H, .wait (.us t.tLatchUs), .write .lat .L, .wait (.us t.tLatchUs)]

/-- The events of the tail of send (R130, R133). -/
def tailEvents (v : LatchVariant) (t : Timing) : List Event :=
  match v with
  | .single => [.wait (.ms t.tSettleMs)]
  | .double => latchPulseEvents t

/-- The event list of one send (R130, R133). -/
def sendEvents (v : LatchVariant) (t : Timing) (T : TWord) : List Event :=
  .write .rs (Level.ofBool T.rs) :: (shiftOutEvents t T.byte .msbFirst ++ latchPulseEvents t ++ tailEvents v t)

/-- An event with nothing recorded beside it. -/
def plainAction (e : Event) : JobItem := ⟨e, .plain⟩

/-- The event list of one send with its notes: the word starts at the write of RS and is delivered at the end of the
first latch pulse (R130, R187; log 11). -/
def sendActions (v : LatchVariant) (t : Timing) (T : TWord) : List JobItem :=
  ⟨.write .rs (Level.ofBool T.rs), .begins T⟩ ::
    ((shiftOutEvents t T.byte .msbFirst).map plainAction ++
      [plainAction (.write .lat .H), plainAction (.wait (.us t.tLatchUs)), plainAction (.write .lat .L),
        ⟨.wait (.us t.tLatchUs), .delivers T⟩] ++
      (tailEvents v t).map plainAction)

/-- The event list `E` of an operation from the words it sends (R7, R24). -/
def jobOf (v : LatchVariant) (t : Timing) (Ts : List TWord) : List JobItem := Ts.flatMap (sendActions v t)

/-- One element of a job: its event, and what its note records. -/
def State.performAction (s : State) (a : JobItem) : State :=
  match a.note with
  | .plain => s.perform a.event
  | .begins T => (s.recordWord T).perform a.event
  | .delivers T => (s.perform a.event).deliver T

/-- The elements of a job, in order. -/
def State.performActions (s : State) : List JobItem → State
  | [] => s
  | a :: rest => State.performActions (s.performAction a) rest

/-- The sends of the words listed, in order. -/
def State.sendAll (s : State) : List TWord → State
  | [] => s
  | T :: rest => State.sendAll (s.send T) rest

end Sys2Proof.Machine
end

