-- ==== Sys2Proof/Machine/Instructions.lean ====
section
/-! DEFINITION. The meanings of the seven display instructions: for the block, the transmission of the word the
instruction is encoded to (`43_display_instructions.md` R141 to R149). -/

namespace Sys2Proof.Machine

/-- FUNCTION_SET (R141). -/
def execFunctionSet (s : State) : Host.Outcome State Fault Refusal := issue .functionSet s

/-- CLEAR (R142). -/
def execClear (s : State) : Host.Outcome State Fault Refusal := issue .clear s

/-- HOME (R143). -/
def execHome (s : State) : Host.Outcome State Fault Refusal := issue .home s

/-- POWER_CONTROL (R144). -/
def execPowerControl (displayOn cursorOn blinkOn : Bool) (s : State) : Host.Outcome State Fault Refusal :=
  issue (.powerControl displayOn cursorOn blinkOn) s

/-- SHIFT (R145). -/
def execShift (target : ShiftTarget) (direction : Direction) (s : State) : Host.Outcome State Fault Refusal :=
  issue (.shift target direction) s

/-- SET_ADDRESS (R146): the range check comes before any event (R202, R206). -/
def execSetAddress (addr : Nat) (s : State) : Host.Outcome State Fault Refusal :=
  if s.seq = .idle then
    if addr > Config.maxAddr then .next (s.raise (.addressOutOfRange addr)) else issue (.setAddress addr) s
  else .refused .operationInProgress

/-- WRITE_CHAR (R147). -/
def execWriteChar (ch : Byte) (s : State) : Host.Outcome State Fault Refusal := issue (.writeChar ch) s

end Sys2Proof.Machine
end

