-- ==== Sys2Proof/Machine/Dispatch.lean ====
section
/-! DEFINITION. The meaning of each instruction, one arm for each constructor. -/

namespace Sys2Proof.Machine

def exec (i : Instr) (s : State) : Host.Outcome State Fault Refusal :=
  match i with
  | .functionSet => Sys2Proof.Machine.execFunctionSet s
  | .clear => Sys2Proof.Machine.execClear s
  | .home => Sys2Proof.Machine.execHome s
  | .powerControl displayOn cursorOn blinkOn => Sys2Proof.Machine.execPowerControl displayOn cursorOn blinkOn s
  | .shift target direction => Sys2Proof.Machine.execShift target direction s
  | .setAddress addr => Sys2Proof.Machine.execSetAddress addr s
  | .writeChar ch => Sys2Proof.Machine.execWriteChar ch s

end Sys2Proof.Machine
end

