-- ==== Sys2Proof/Machine/Operations.lean ====
section
/-! DEFINITION. The eight host operations and `send` at the channel level, each a fixed sequence of instructions
(`44_operations.md` R160 to R167, `30_encoding.md` R88, R92), and a run of operations (`44_operations.md` R170). -/

namespace Sys2Proof.Machine

/-- The instructions listed, each issued when the one before has ended (R62, R168). -/
def execAll : List Instr → State → Host.Outcome State Fault Refusal
  | [], s => .next s
  | i :: rest, s =>
    match exec i s with
    | .next t => execAll rest t
    | .fault f => .fault f
    | .refused r => .refused r

/-- The four instructions of initialize (R160). -/
def initializeInstrs : List Instr := [.functionSet, .clear, .home, .powerControl true false false]

/-- initialize (R160). -/
def opInitialize (s : State) : Host.Outcome State Fault Refusal := execAll initializeInstrs s

/-- clear (R161). -/
def opClear (s : State) : Host.Outcome State Fault Refusal := exec .clear s

/-- home (R162). -/
def opHome (s : State) : Host.Outcome State Fault Refusal := exec .home s

/-- power_control (R163). -/
def opPowerControl (displayOn cursorOn blinkOn : Bool) (s : State) : Host.Outcome State Fault Refusal :=
  exec (.powerControl displayOn cursorOn blinkOn) s

/-- shift (R164). -/
def opShift (target : ShiftTarget) (direction : Direction) (s : State) : Host.Outcome State Fault Refusal :=
  exec (.shift target direction) s

/-- set_address (R165). -/
def opSetAddress (addr : Nat) (s : State) : Host.Outcome State Fault Refusal := exec (.setAddress addr) s

/-- set_cursor (R166): the translation, then set_address. -/
def opSetCursor (col row : Nat) (s : State) : Host.Outcome State Fault Refusal :=
  match translateCursor col row with
  | .addr a => opSetAddress a.toNat s
  | .raises f => .next (s.raise f)

/-- print (R167). -/
def opPrint (text : List Nat) (s : State) : Host.Outcome State Fault Refusal := execAll (charInstrs text) s

/-- send at the channel level (R88, R130): a word that is an instruction runs as that instruction, and a reserved
word is transmitted like any other. -/
def opSend (registerSelect : Bool) (byte : Byte) (s : State) : Host.Outcome State Fault Refusal :=
  match decodeWord ⟨registerSelect, byte⟩ with
  | .instr i => exec i s
  | .reserved _ => transmit ⟨registerSelect, byte⟩ s

/-- What an operation does once it has been taken. -/
def Operation.body : Operation → State → Host.Outcome State Fault Refusal
  | .initializeDisplay, s => opInitialize s
  | .clear, s => opClear s
  | .home, s => opHome s
  | .powerControl d c b, s => opPowerControl d c b s
  | .shift t r, s => opShift t r s
  | .setAddress addr, s => opSetAddress addr s
  | .setCursor col row, s => opSetCursor col row s
  | .print text, s => opPrint text s
  | .send registerSelect byte, s => opSend registerSelect byte s

/-- The operation-level observation: an operation is accepted or rejected on its arguments alone (R7, R200). -/
def State.recordOperation (s : State) (op : Operation) : State :=
  match op.fault with
  | none => { s with accepted := s.accepted ++ [op] }
  | some _ => { s with rejected := s.rejected ++ [op] }

/-- A host call, performed whole: the big step that is normative (R24). It starts only from SEQ idle (R25, R204). -/
def callOperation (op : Operation) (s : State) : Host.Outcome State Fault Refusal :=
  if s.seq = .idle then
    match op.refusal with
    | some r => .refused r
    | none => op.body (s.recordOperation op)
  else .refused .operationInProgress

/-- A run: the operations listed, in order; a rejected one contributes nothing and the run goes on (R93, R170,
R207). -/
def runOperations : List Operation → State → Host.Outcome State Fault Refusal
  | [], s => .next s
  | op :: rest, s =>
    match callOperation op s with
    | .next t => runOperations rest t
    | .fault f => .fault f
    | .refused r => .refused r

/-- WORDS(op): the words an operation sends, none when it is rejected (R7, R92). -/
def Operation.words : Operation → List TWord
  | .initializeDisplay => initializeInstrs.map encode
  | .clear => [encode .clear]
  | .home => [encode .home]
  | .powerControl d c b => [encode (.powerControl d c b)]
  | .shift t r => [encode (.shift t r)]
  | .setAddress addr => if addr > Config.maxAddr then [] else [encode (.setAddress addr)]
  | .setCursor col row =>
    match translateCursor col row with
    | .addr a => [encode (.setAddress a.toNat)]
    | .raises _ => []
  | .print text => (charInstrs text).map encode
  | .send registerSelect byte => [⟨registerSelect, byte⟩]

/-- TRACE(op) (R7). -/
def Operation.events (op : Operation) : List Event :=
  op.words.flatMap (sendEvents Config.latchVariant Config.timing)

end Sys2Proof.Machine
end

