-- ==== Sys2Proof/Machine/Sequencer.lean ====
section
/-! DEFINITION. The sequencer: the small step through SEQ (`10_state.md` R24), and how a waiting host call is taken
(`44_operations.md` R170). -/

namespace Sys2Proof.Machine

/-- The operation has its event list and SEQ points at the first event; an empty list is complete at once (R24,
R169). -/
def State.startJob (s : State) (job : List JobItem) : State :=
  if job = [] then s else { s with seq := .pos 0, job := job }

/-- A host call, started: the same checks as the call performed whole, and then SEQ at its first event (R24, R25). -/
def startOperation (op : Operation) (s : State) : Host.Outcome State Fault Refusal :=
  if s.seq = .idle then
    match op.refusal with
    | some r => .refused r
    | none =>
      match op.fault with
      | some f => .next ((s.recordOperation op).raise f)
      | none =>
        if op.words = [] then .next (s.recordOperation op)
        else if s.booted then
          .next ((s.recordOperation op).startJob (jobOf Config.latchVariant Config.timing op.words))
        else .refused .bootRequirement
  else .refused .operationInProgress

/-- `SEQ <- SEQ + 1`, and `SEQ <- idle` when the list is done (R24, R168). -/
def State.advance (s : State) (n : Nat) : State :=
  if n + 1 < s.job.length then { s with seq := .pos (n + 1) } else { s with seq := .idle, job := [] }

/-- One step of an operation in progress: event `n` is performed and SEQ advances (R24). -/
def stepEvent (n : Nat) (s : State) : Host.Outcome State Fault Refusal :=
  match s.job[n]? with
  | some a => .next ((s.performAction a).advance n)
  | none => .fault .sequencerOverrun

/-- A waiting call is taken whole or started (R24, R170; log 5). -/
def takeCall (c : Call) (s : State) : Host.Outcome State Fault Refusal :=
  match c.pace with
  | .whole => callOperation c.op s
  | .eventwise => startOperation c.op s

/-- From SEQ idle: the first waiting call is taken, and with none waiting the block waits (R170, R230). -/
def idleStep (s : State) : Host.Outcome State Fault Refusal :=
  match s.port with
  | [] => .next s
  | c :: rest => takeCall c { s with port := rest }

/-- The host makes a call: it waits in the port behind the earlier ones (R65, R170; log 4). -/
def State.placeCall (s : State) (c : Call) : State := { s with port := s.port ++ [c] }

/-- The word goes to the head of the port as a call of `send` to be performed whole, with SEQ idle and the boot
requirement met (R232; log 3). -/
def State.placeWord (s : State) (T : TWord) : State :=
  { s.boot with seq := .idle, job := [], port := ⟨.send T.rs T.byte, .whole⟩ :: s.port }

end Sys2Proof.Machine
end

