-- ==== Sys2Proof/Machine/Step.lean ====
section
/-! DEFINITION. One step of the machine (`10_state.md` R24), and how a word comes to be the next instruction. -/

namespace Sys2Proof.Machine

/-- One step: the next event of the operation in progress, or from SEQ idle the next host call (R24, R25). -/
def step (s : State) : Host.Outcome State Fault Refusal :=
  match s.seq with
  | .pos n => stepEvent n s
  | .idle => idleStep s

/-- `s` with the 9-bit word that the low `nbits` bits of `w` are as the next call, and all that a first call takes
(log 3). A number of more than 9 bits is no word and places nothing (log 22). -/
def State.withFetchWord (s : State) (nbits w : Nat) : State :=
  if w % 2 ^ nbits < 2 ^ 9 then s.placeWord (TWord.ofBits (BitVec.ofNat 9 (w % 2 ^ nbits))) else s

end Sys2Proof.Machine
end

