-- ==== Sys2Proof/Machine/Observation.lean ====
section
/-! DEFINITION. What is read off TRACE: its projections (`00_scope.md` R11), the time requested (`60_exceptions.md`
R212, `70_reset_and_hazards.md` R246), and what a display that samples at a given instant latches
(`45_downstream_devices.md` R188, R189). -/

namespace Sys2Proof.Machine

/-- An event that writes a line. -/
def Event.isWrite : Event → Bool
  | .write _ _ => true
  | .wait _ => false

/-- An event that writes the line `n`. -/
def Event.writes (n : LineName) : Event → Bool
  | .write m _ => m == n
  | .wait _ => false

/-- The line projection: the trace without its `D` events (R11). -/
def lineProjection (es : List Event) : List Event := es.filter Event.isWrite

/-- `LINE[n]` (R10). -/
def State.line (s : State) : LineName → Known Level
  | .ser => s.ser
  | .sck => s.sck
  | .lat => s.lat
  | .rs => s.rs

/-- A write of the level the line already has (R11). -/
def State.redundant (s : State) : Event → Bool
  | .write n v => s.line n == .is v
  | .wait _ => false

/-- The transition projection, from the state the events start in: no `D` event and no write of a level the line
already had (R11). -/
def transitionProjection (s : State) : List Event → List Event
  | [] => []
  | e :: rest =>
    if e.isWrite && !s.redundant e then e :: transitionProjection (s.perform e) rest
    else transitionProjection (s.perform e) rest

/-- A requested duration in microseconds. -/
def Duration.inUs : Duration → Nat
  | .us n => n
  | .ms n => 1000 * n

/-- The time an event requests, in microseconds; a write takes no modelled time (R246). -/
def Event.requestedUs : Event → Nat
  | .write _ _ => 0
  | .wait d => d.inUs

/-- The time the waits of a list of events request, in microseconds: a lower bound of what elapses (R11, R245). -/
def requestedUs (es : List Event) : Nat := (es.map Event.requestedUs).sum

/-- What the display's inputs hold at an instant: RS and the eight data lines, wired from QA..QH in order (R186). -/
structure Sample where
  rs : Known Level
  bus : SrBits
deriving DecidableEq, Repr

/-- The sample that an event makes the display take, if any: at the falling edge of LAT, or at its rising edge
before SR.out changes (R188, R189; log 16). -/
def strobeSample (σ : StrobeSampling) (s : State) (e : Event) : Option Sample :=
  match σ, e, s.lat with
  | .falling, .write .lat .L, .is .H => some ⟨s.rs, s.srOut⟩
  | .risingBeforeCommit, .write .lat .H, .is .L => some ⟨s.rs, s.srOut⟩
  | _, _, _ => none

/-- What the display latches over a list of events, from the state they start in (R189). -/
def latchedSamples (σ : StrobeSampling) (s : State) : List Event → List Sample
  | [] => []
  | e :: rest =>
    match strobeSample σ s e with
    | some x => x :: latchedSamples σ (s.perform e) rest
    | none => latchedSamples σ (s.perform e) rest

end Sys2Proof.Machine
end

