-- ==== Sys2Proof/Safety.lean ====
section
/-! DEFINITION. The terms in which claims speak of a state and of a transmission: what the wires hold after a word,
what a word changes and what it leaves, the order of the line writes, and the invariant of every step. -/

namespace Sys2Proof.Machine

/-- What the lines and the shift register hold once the word `T` has been sent (R134, R184). -/
structure WiresHold (T : TWord) (t : State) : Prop where
  rs : t.rs = .is (Level.ofBool T.rs)
  ser : t.ser = .is (bitLevel T.byte 0)
  sck : t.sck = .is .L
  lat : t.lat = .is .L
  srShift : t.srShift = SrBits.ofByte T.byte
  srOut : t.srOut = SrBits.ofByte T.byte

/-- From `s` to `t` exactly the word `T` has been sent (R130, R187). -/
structure Sent (T : TWord) (s t : State) : Prop where
  words : t.words = s.words ++ [T]
  trace : t.trace = s.trace ++ sendEvents Config.latchVariant Config.timing T
  delivered : t.delivered = s.delivered ++ [T]

/-- The host's side and the sequencer are as before: SEQ, the job, the port and the operation-level observation. -/
structure HostSideKept (s t : State) : Prop where
  seq : t.seq = s.seq
  job : t.job = s.job
  port : t.port = s.port
  accepted : t.accepted = s.accepted
  rejected : t.rejected = s.rejected
  faults : t.faults = s.faults

/-- Every display-side register but AC, DDRAM and the shift state is as before. -/
structure DisplayModeKept (d e : Display) : Prop where
  busWidth : e.busWidth = d.busWidth
  displayLines : e.displayLines = d.displayLines
  font : e.font = d.font
  displayOn : e.displayOn = d.displayOn
  cursorOn : e.cursorOn = d.cursorOn
  blinkOn : e.blinkOn = d.blinkOn

/-- Every byte of DDRAM reads as before. -/
def DdramKept (d e : Display) : Prop := ∀ a : Nat, Memory.read e.ddram a = Memory.read d.ddram a

/-- Every byte of DDRAM is unknown. -/
def DdramUnknown (d : Display) : Prop := ∀ a : Nat, Memory.read d.ddram a = none

/-- The least wait between two consecutive line writes of a transmission; none for two writes that never follow one
another. Data before clock and stable until after it, RS first and stable through the latch, the latch phases
(R236, R237, R239). -/
def leastGap (t : Timing) (before next : LineName × Level) : Option Nat :=
  match before, next with
  | (.rs, _), (.ser, _) => some 0
  | (.ser, _), (.sck, .H) => some t.tBitUs
  | (.sck, .H), (.sck, .L) => some t.tBitUs
  | (.sck, .L), (.ser, _) => some t.tBitUs
  | (.sck, .L), (.lat, .H) => some t.tBitUs
  | (.lat, .H), (.lat, .L) => some t.tLatchUs
  | (.lat, .L), (.lat, .H) => some t.tLatchUs
  | (.lat, .L), (.rs, _) => some t.tLatchUs
  | _, _ => none

/-- Every line write comes at least the required wait after the line write before it; the first write is of RS. -/
def disciplinedFrom (t : Timing) : Option (LineName × Level) → Nat → List Event → Bool
  | _, _, [] => true
  | before, waited, .wait d :: rest => disciplinedFrom t before (waited + d.inUs) rest
  | none, _, .write n v :: rest => n == .rs && disciplinedFrom t (some (n, v)) 0 rest
  | some before, waited, .write n v :: rest =>
    (match leastGap t before (n, v) with
      | some g => decide (g ≤ waited)
      | none => false) && disciplinedFrom t (some (n, v)) 0 rest

/-- The line writes of a list of transmissions respect the hazards of R236 to R239. -/
def disciplined (t : Timing) (es : List Event) : Bool := disciplinedFrom t none 0 es

/-- Before initialize is complete nothing is known of the power flags, of AC, of DDRAM or of a shift, and before it has
begun nothing at all (R234, U11; log 26). -/
structure UnknownBeforeInitialize (d : Display) : Prop where
  flags : d.progress ≠ .done → d.displayOn = .unknown ∧ d.cursorOn = .unknown ∧ d.blinkOn = .unknown
  address : d.progress ≠ .done → d.ac = .unknown
  ddram : d.progress ≠ .done → DdramUnknown d
  moves : d.progress ≠ .done → d.shiftMoves = []
  all : d.progress = .notStarted → d = Display.unknown

/-- The addresses listed in DDRAM are cells (R51): outside them the model knows no content (log 12). -/
def DdramCells (m : Memory) : Prop := ∀ c ∈ m, c.1 < 0x10 ∨ (0x40 ≤ c.1 ∧ c.1 < 0x50)

/-- Between operations: no job, WORDS and TRACE are those of the accepted operations (R7, R26), every word has been
delivered (R187), and the wires hold the last word (R23, R134, R184). -/
structure Settled (s : State) : Prop where
  job : s.job = []
  words : s.words = s.accepted.flatMap Operation.words
  trace : s.trace = s.words.flatMap (sendEvents Config.latchVariant Config.timing)
  delivered : s.delivered = s.words
  wires : ∀ T, s.words.getLast? = some T → WiresHold T s

/-- The operation in progress, run to its end from its event `n` (R25). -/
def State.finish (s : State) (n : Nat) : State := { s.performActions (s.job.drop n) with seq := .idle, job := [] }

/-- The state is settled, or an event is left to perform and running the operation to its end settles it. -/
def Sequenced (s : State) : Prop :=
  match s.seq with
  | .idle => Settled s
  | .pos n => n < s.job.length ∧ Settled (s.finish n)

/-- `k` steps, stopping at the first fault or refusal. -/
def runSteps : Nat → State → Host.Outcome State Fault Refusal
  | 0, s => .next s
  | k + 1, s =>
    match step s with
    | .next t => runSteps k t
    | .fault f => .fault f
    | .refused r => .refused r

/-- The invariant of every step. -/
structure StateInv (s : State) : Prop where
  sequenced : Sequenced s
  ddram : Memory.wf s.display.ddram
  uninitialised : UnknownBeforeInitialize s.display
  cells : DdramCells s.display.ddram
  accepted : ∀ op ∈ s.accepted, op.fault = none
  faults : s.faults = s.rejected.filterMap Operation.fault
  rejected : s.faults.length = s.rejected.length

end Sys2Proof.Machine
end

