-- ==== Sys2Proof/Certificates/Slice0/Obligations.lean ====
section
/-! DEFINITION. The statements for the provers, made from the rules of the spec. Statements about the display-side
reference model rest on the model's choices named in the log entries their docstrings cite. -/

open Sys2Proof Sys2Proof.Machine

/-! The word and its encoding. -/

/-- Words written out bit by bit from the field tables of R82 decode to the instructions they stand for, and two
reserved words are refused by name (R85, R87). -/
def Obligations.SpecWordsDecode : Prop :=
  decode 0b000111000 = .instr .functionSet ∧
  decode 0b000000001 = .instr .clear ∧
  decode 0b000000010 = .instr .home ∧
  decode 0b000001110 = .instr (.powerControl true true false) ∧
  decode 0b000010100 = .instr (.shift .cursor .right) ∧
  decode 0b000011000 = .instr (.shift .display .left) ∧
  decode 0b011000101 = .instr (.setAddress 0x45) ∧
  decode 0b101000001 = .instr (.writeChar 0x41) ∧
  decode 0b100111000 = .instr (.writeChar 0x38) ∧
  decode 0b000000011 = .reserved 0x03 ∧
  decode 0b000111001 = .reserved 0x39

/-- The decoder reads back every well-formed instruction from its word. -/
def Obligations.DecodeOfEncode : Prop :=
  ∀ i : Instr, i.wellFormed = true → decode (encode i).bits = .instr i

/-- A word that decodes to an instruction is that instruction's word, and the instruction is well formed. -/
def Obligations.EncodeOfDecode : Prop :=
  ∀ (w : BitVec 9) (i : Instr), decode w = .instr i → (encode i).bits = w ∧ i.wellFormed = true

/-- The byte of every instruction, by the formulas of R140 taken as numbers, and its register-select flag. -/
def Obligations.EncodedBytes : Prop :=
  ((encode .functionSet).rs = false ∧ (encode .functionSet).byte.toNat = 0x38) ∧
  ((encode .clear).rs = false ∧ (encode .clear).byte.toNat = 0x01) ∧
  ((encode .home).rs = false ∧ (encode .home).byte.toNat = 0x02) ∧
  (∀ d c b : Bool, (encode (.powerControl d c b)).rs = false ∧
    (encode (.powerControl d c b)).byte.toNat = (0x08 ||| (d.toNat <<< 2) ||| (c.toNat <<< 1) ||| b.toNat)) ∧
  (∀ (t : ShiftTarget) (r : Direction), (encode (.shift t r)).rs = false ∧
    (encode (.shift t r)).byte.toNat =
      (0x10 ||| ((if t = .display then 1 else 0) <<< 3) ||| ((if r = .right then 1 else 0) <<< 2))) ∧
  (∀ addr : Nat, addr ≤ 0x7F → (encode (.setAddress addr)).rs = false ∧
    (encode (.setAddress addr)).byte.toNat = (0x80 ||| addr)) ∧
  (∀ ch : Byte, encode (.writeChar ch) = ⟨true, ch⟩)

/-- A row of the opcode table selects exactly the words that decode to its instruction. -/
def Obligations.RowSelectsItsWords : Prop :=
  ∀ (w : BitVec 9) (r : OpcodeRow), r ∈ opcodeTable →
    (r.selects w = true ↔ ∃ i, decode w = .instr i ∧ i.row = r)

/-- The reserved words are those with rs = 0 and one of the 113 bytes that R87 lists, and no instruction is encoded
to one. -/
def Obligations.ReservedWords : Prop :=
  (∀ (rs : Bool) (b : Byte),
    decodeWord ⟨rs, b⟩ = .reserved b ↔
      rs = false ∧ (b.toNat = 0x00 ∨ (0x03 ≤ b.toNat ∧ b.toNat ≤ 0x07) ∨
        b.toNat ∈ [0x11, 0x12, 0x13, 0x15, 0x16, 0x17, 0x19, 0x1A, 0x1B, 0x1D, 0x1E, 0x1F] ∨
        (0x20 ≤ b.toNat ∧ b.toNat ≤ 0x37) ∨ (0x39 ≤ b.toNat ∧ b.toNat ≤ 0x7F))) ∧
  (∀ (i : Instr) (b : Byte), i.wellFormed = true → decodeWord (encode i) ≠ .reserved b)

/-! The micro-operations. -/

/-- shift_out appends exactly the 48 events of R112, in either order, and its line projection is the 8 data writes,
each followed by one clock pulse. -/
def Obligations.ShiftOutEventList : Prop :=
  ∀ (b : Byte) (order : BitOrder) (s : State), ∃ (t : State) (es : List Event),
    shiftOut b 8 order s = .next t ∧ t.trace = s.trace ++ es ∧
    es = (List.range 8).flatMap (fun i =>
      let v := Level.ofBool (b.getLsbD (if order = .msbFirst then 7 - i else i))
      [.write .ser v, .wait (.us Config.timing.tBitUs), .write .sck .H, .wait (.us Config.timing.tBitUs),
        .write .sck .L, .wait (.us Config.timing.tBitUs)]) ∧
    es.length = 48 ∧
    lineProjection es = (List.range 8).flatMap (fun i =>
      [.write .ser (Level.ofBool (b.getLsbD (if order = .msbFirst then 7 - i else i))),
        .write .sck .H, .write .sck .L]) ∧
    (lineProjection es).length = 24 ∧
    (es.filter (Event.writes .ser)).length = 8 ∧ (es.filter (Event.writes .sck)).length = 16 ∧
    (es.filter (fun e => !e.isWrite)).length = 24 ∧ requestedUs es = 24 * Config.timing.tBitUs ∧
    (∀ e ∈ es, e.writes .lat = false ∧ e.writes .rs = false)

/-- shift_out leaves the clock low and the data line at the last bit sent, and neither LAT nor RS changes. -/
def Obligations.ShiftOutLeavesLines : Prop :=
  ∀ (b : Byte) (order : BitOrder) (s : State), ∃ t, shiftOut b 8 order s = .next t ∧
    t.sck = .is .L ∧
    t.ser = .is (Level.ofBool (b.getLsbD (if order = .msbFirst then 0 else 7))) ∧
    t.lat = s.lat ∧ t.rs = s.rs

/-- A bit count other than 8 is refused by name. -/
def Obligations.OtherBitCountsRefused : Prop :=
  ∀ (b : Byte) (bits : Nat) (order : BitOrder) (s : State), bits ≠ 8 →
    shiftOut b bits order s = .refused (.bitCount bits)

/-- A rising clock edge shifts SER in at the QA end, and no other event changes SR.shift. A clock raised from an
unknown level is the case of UnknownLevelsSpread. -/
def Obligations.ShiftStageMovesOnRisingClock : Prop :=
  ∀ (s : State) (e : Event), (e = .write .sck .H → s.sck ≠ .unknown) →
    (s.perform e).srShift =
      if e = .write .sck .H ∧ s.sck = .is .L then
        { qh := s.srShift.qg, qg := s.srShift.qf, qf := s.srShift.qe, qe := s.srShift.qd,
          qd := s.srShift.qc, qc := s.srShift.qb, qb := s.srShift.qa, qa := s.ser }
      else s.srShift

/-- A rising latch edge copies SR.shift to SR.out, and no other event changes SR.out. A latch raised from an unknown
level is the case of UnknownLevelsSpread. -/
def Obligations.OutputStageCommitsOnRisingLatch : Prop :=
  ∀ (s : State) (e : Event), (e = .write .lat .H → s.lat ≠ .unknown) →
    (s.perform e).srOut = if e = .write .lat .H ∧ s.lat = .is .L then s.srShift else s.srOut

/-- Unknown values: a bit shifted in from an unknown SER is unknown, and a clock (or latch) raised from an unknown
level leaves SR.shift (or SR.out) wholly unknown. -/
def Obligations.UnknownLevelsSpread : Prop :=
  ∀ s : State,
    (s.ser = .unknown → s.sck = .is .L → (s.perform (.write .sck .H)).srShift.qa = .unknown) ∧
    (s.sck = .unknown → (s.perform (.write .sck .H)).srShift = SrBits.unknown) ∧
    (s.lat = .unknown → (s.perform (.write .lat .H)).srOut = SrBits.unknown)

/-- The flush law: entered with the clock low, a whole byte replaces SR.shift, most significant first in its natural
order and least significant first reversed, whatever SR.shift held; SR.out is unchanged. -/
def Obligations.ShiftOutFlushesShiftStage : Prop :=
  ∀ (b : Byte) (s : State), s.sck = .is .L →
    (∃ t, shiftOut b 8 .msbFirst s = .next t ∧ t.srShift = SrBits.ofByte b ∧ t.srOut = s.srOut) ∧
    (∃ t, shiftOut b 8 .lsbFirst s = .next t ∧ t.srShift = SrBits.ofByte b.reverse ∧ t.srOut = s.srOut)

/-- latch_pulse is one pulse, high then low: 4 events, 2 of them writes, 2 waits of the latch time each. -/
def Obligations.LatchPulseIsHighThenLow : Prop :=
  ∀ s : State, ∃ es, s.latchPulse.trace = s.trace ++ es ∧
    es = [.write .lat .H, .wait (.us Config.timing.tLatchUs), .write .lat .L, .wait (.us Config.timing.tLatchUs)] ∧
    es.length = 4 ∧ (lineProjection es).length = 2 ∧ (es.filter (fun e => !e.isWrite)).length = 2 ∧
    requestedUs es = 2 * Config.timing.tLatchUs ∧ s.latchPulse.lat = .is .L

/-- latch_pulse entered with LAT low commits SR.shift and leaves LAT low and the other lines and SR.shift as they
were. -/
def Obligations.LatchPulseCommits : Prop :=
  ∀ s : State, s.lat = .is .L →
    s.latchPulse.srOut = s.srShift ∧ s.latchPulse.lat = .is .L ∧ s.latchPulse.srShift = s.srShift ∧
    s.latchPulse.ser = s.ser ∧ s.latchPulse.sck = s.sck ∧ s.latchPulse.rs = s.rs

/-- The event list of a send in both variants, for any timing: its counts, the time it requests, and where its parts
lie. -/
def Obligations.SendEventCounts : Prop :=
  ∀ (t : Timing) (T : TWord),
    ((sendEvents .single t T).length = 54 ∧ (lineProjection (sendEvents .single t T)).length = 27 ∧
      requestedUs (sendEvents .single t T) = 24 * t.tBitUs + 2 * t.tLatchUs + 1000 * t.tSettleMs) ∧
    ((sendEvents .double t T).length = 57 ∧ (lineProjection (sendEvents .double t T)).length = 29 ∧
      requestedUs (sendEvents .double t T) = 24 * t.tBitUs + 4 * t.tLatchUs) ∧
    (∀ v : LatchVariant,
      (sendEvents v t T)[0]? = some (.write .rs (Level.ofBool T.rs)) ∧
      (∀ i : Nat, i < 8 →
        (sendEvents v t T)[1 + 6 * i]? = some (.write .ser (Level.ofBool (T.byte.getLsbD (7 - i)))) ∧
        (sendEvents v t T)[3 + 6 * i]? = some (.write .sck .H) ∧
        (sendEvents v t T)[5 + 6 * i]? = some (.write .sck .L)) ∧
      (sendEvents v t T)[49]? = some (.write .lat .H) ∧ (sendEvents v t T)[51]? = some (.write .lat .L)) ∧
    (sendEvents .single t T)[53]? = some (.wait (.ms t.tSettleMs)) ∧
    (sendEvents .double t T)[53]? = some (.write .lat .H) ∧ (sendEvents .double t T)[55]? = some (.write .lat .L)

/-- RS is the first line written in a transmission and is not written again in it. -/
def Obligations.RegisterSelectWrittenOnceFirst : Prop :=
  ∀ (v : LatchVariant) (t : Timing) (T : TWord), ∃ rest,
    sendEvents v t T = .write .rs (Level.ofBool T.rs) :: rest ∧ ∀ e ∈ rest, e.writes .rs = false

/-- send(rs, b) started from SEQ idle and the boot requirement: WORDS grows by the word and TRACE by RS, the 48
events of shift_out most significant bit first, the latch pulse and the tail of the variant; SEQ is idle after it and
the host's side is as before. -/
def Obligations.SendTransmitsTheWord : Prop :=
  ∀ (T : TWord) (s : State), s.seq = .idle → s.booted = true → ∃ t, transmit T s = .next t ∧
    t.words = s.words ++ [T] ∧
    t.trace = s.trace ++ [.write .rs (Level.ofBool T.rs)] ++ shiftOutEvents Config.timing T.byte .msbFirst ++
      latchPulseEvents Config.timing ++
      (match Config.latchVariant with
        | .single => [.wait (.ms Config.timing.tSettleMs)]
        | .double => latchPulseEvents Config.timing) ∧
    t.seq = .idle ∧ HostSideKept s t

/-- What a send leaves, in either variant: RS at the flag, SER at bit 0, SCK and LAT low, and both stages of the shift
register holding the byte in its natural order; the word has been delivered once. This is what R134, R137 and R184
derive from the pseudocode of send. -/
def Obligations.SendLeavesTheWires : Prop :=
  ∀ (T : TWord) (s : State), s.seq = .idle → s.booted = true → ∃ t, transmit T s = .next t ∧
    t.rs = .is (Level.ofBool T.rs) ∧ t.ser = .is (bitLevel T.byte 0) ∧ t.sck = .is .L ∧ t.lat = .is .L ∧
    t.seq = .idle ∧ t.srShift = SrBits.ofByte T.byte ∧ t.srOut = SrBits.ofByte T.byte ∧
    t.words = s.words ++ [T] ∧ t.delivered = s.delivered ++ [T]

/-! The seven instructions. Each answers a next state from SEQ idle and the boot requirement; what it leaves
unchanged stands in HostSideKept and in the display's fields. What a display that has not received initialize holds
after a word is not in the source: the statements' clauses for it, and that initialize's own words act as they arrive,
are the model's choice (log 26). -/

/-- issue(instr): every well-formed instruction is executed by sending the word it is encoded to, and writes nothing
but what send writes. -/
def Obligations.IssueSendsTheEncodedWord : Prop :=
  ∀ (i : Instr) (s : State), i.wellFormed = true → s.seq = .idle → s.booted = true →
    ∃ t, exec i s = .next t ∧ transmit (encode i) s = .next t ∧ Sent (encode i) s t ∧ HostSideKept s t

/-- Each of the seven instructions is the send of its byte, as its pseudocode says, and SET_ADDRESS checks its
argument first. -/
def Obligations.InstructionsSendTheirBytes : Prop :=
  ∀ s : State, s.seq = .idle →
    exec .functionSet s = transmit ⟨false, 0x38⟩ s ∧
    exec .clear s = transmit ⟨false, 0x01⟩ s ∧
    exec .home s = transmit ⟨false, 0x02⟩ s ∧
    (∀ d c b : Bool, exec (.powerControl d c b) s =
      transmit ⟨false, BitVec.ofNat 8 (0x08 ||| (d.toNat <<< 2) ||| (c.toNat <<< 1) ||| b.toNat)⟩ s) ∧
    (∀ (target : ShiftTarget) (direction : Direction), exec (.shift target direction) s =
      transmit ⟨false, BitVec.ofNat 8 (0x10 ||| ((if target = .display then 1 else 0) <<< 3) |||
        ((if direction = .right then 1 else 0) <<< 2))⟩ s) ∧
    (∀ addr : Nat, exec (.setAddress addr) s =
      if addr > 0x7F then .next { s with faults := s.faults ++ [.addressOutOfRange addr] }
      else transmit ⟨false, BitVec.ofNat 8 (0x80 ||| addr)⟩ s) ∧
    (∀ ch : Byte, exec (.writeChar ch) s = transmit ⟨true, ch⟩ s)

/-- FUNCTION_SET sends 0:0x38; a display configured by initialize then has an 8-bit bus, two lines and the 5 by 8 font,
and its other fields and its DDRAM are as before. On any other display it begins initialize, and nothing but these
three is known (the model's choice, log 26). -/
def Obligations.FunctionSetSends : Prop :=
  ∀ s : State, s.seq = .idle → s.booted = true → ∃ t, exec .functionSet s = .next t ∧
    Sent ⟨false, 0x38⟩ s t ∧ HostSideKept s t ∧
    (s.display.progress = .done → t.display =
      { s.display with busWidth := .is .eightBit, displayLines := .is .two, font := .is .dots5x8 }) ∧
    (s.display.progress ≠ .done → t.display =
      { Display.unknown with
        progress := .functionSet, busWidth := .is .eightBit, displayLines := .is .two, font := .is .dots5x8 })

/-- CLEAR sends 0:0x01. The source gives its display-side effect no more than a name, so the model leaves AC, DDRAM
and the shift state unknown (the model's choice, log 12 and log 15); on a configured display, and after the first word
of initialize, the other fields are as before, and on any other display nothing is known (log 26). -/
def Obligations.ClearSends : Prop :=
  ∀ s : State, s.seq = .idle → s.booted = true → ∃ t, exec .clear s = .next t ∧
    Sent ⟨false, 0x01⟩ s t ∧ HostSideKept s t ∧
    t.display.ac = .unknown ∧ t.display.shiftMoves = [] ∧ DdramUnknown t.display ∧
    (s.display.progress = .done → DisplayModeKept s.display t.display ∧ t.display.progress = .done) ∧
    (s.display.progress = .functionSet → DisplayModeKept s.display t.display ∧ t.display.progress = .clear) ∧
    (s.display.progress ≠ .done ∧ s.display.progress ≠ .functionSet → t.display = Display.unknown)

/-- HOME sends 0:0x02, with the same display-side effect as the model gives CLEAR (the model's choice, log 12 and
log 15), and carries initialize on after CLEAR (log 26). -/
def Obligations.HomeSends : Prop :=
  ∀ s : State, s.seq = .idle → s.booted = true → ∃ t, exec .home s = .next t ∧
    Sent ⟨false, 0x02⟩ s t ∧ HostSideKept s t ∧
    t.display.ac = .unknown ∧ t.display.shiftMoves = [] ∧ DdramUnknown t.display ∧
    (s.display.progress = .done → DisplayModeKept s.display t.display ∧ t.display.progress = .done) ∧
    (s.display.progress = .clear → DisplayModeKept s.display t.display ∧ t.display.progress = .home) ∧
    (s.display.progress ≠ .done ∧ s.display.progress ≠ .clear → t.display = Display.unknown)

/-- POWER_CONTROL sends 0:0x08 | d<<2 | c<<1 | b and sets the three power flags of a configured display, all together;
every other display field and DDRAM are as before. As the last word of initialize it completes it, and before that
nothing is known of the display (the model's choice, log 26). -/
def Obligations.PowerControlSends : Prop :=
  ∀ (d c b : Bool) (s : State), s.seq = .idle → s.booted = true → ∃ t, exec (.powerControl d c b) s = .next t ∧
    Sent ⟨false, BitVec.ofNat 8 (0x08 + 4 * d.toNat + 2 * c.toNat + b.toNat)⟩ s t ∧ HostSideKept s t ∧
    (s.display.progress = .done ∨ (s.display.progress = .home ∧ d = true ∧ c = false ∧ b = false) → t.display =
      { s.display with progress := .done, displayOn := .is d, cursorOn := .is c, blinkOn := .is b }) ∧
    (s.display.progress ≠ .done ∧ ¬ (s.display.progress = .home ∧ d = true ∧ c = false ∧ b = false) →
      t.display = Display.unknown)

/-- SHIFT sends 0:0x10 + 8·(target = display) + 4·(direction = right). A configured display makes one move; its effect
on AC and DDRAM is not in the source, so the model leaves them unknown (the model's choice, log 12 and log 15). Nothing
is known of another display (log 26). -/
def Obligations.ShiftSends : Prop :=
  ∀ (target : ShiftTarget) (direction : Direction) (s : State), s.seq = .idle → s.booted = true →
    ∃ t, exec (.shift target direction) s = .next t ∧
    Sent ⟨false, BitVec.ofNat 8 (0x10 + 8 * (if target = .display then 1 else 0) +
      4 * (if direction = .right then 1 else 0))⟩ s t ∧ HostSideKept s t ∧
    t.display.ac = .unknown ∧ DdramUnknown t.display ∧
    (s.display.progress = .done → DisplayModeKept s.display t.display ∧ t.display.progress = .done ∧
      t.display.shiftMoves = s.display.shiftMoves ++ [⟨target, direction⟩]) ∧
    (s.display.progress ≠ .done → t.display = Display.unknown)

/-- SET_ADDRESS with addr in [0, 0x7F] sends 0:0x80 | addr and sets the address register of a configured display; every
other display field and DDRAM are as before. Nothing is known of another display (the model's choice, log 26). -/
def Obligations.SetAddressSends : Prop :=
  ∀ (addr : Nat) (s : State), addr ≤ 0x7F → s.seq = .idle → s.booted = true →
    ∃ t, exec (.setAddress addr) s = .next t ∧
    Sent ⟨false, BitVec.ofNat 8 (0x80 + addr)⟩ s t ∧ HostSideKept s t ∧
    (s.display.progress = .done → t.display = { s.display with ac := .is (BitVec.ofNat 7 addr) }) ∧
    (s.display.progress ≠ .done → t.display = Display.unknown)

/-- WRITE_CHAR sends 1:ch with RS high. On a configured display, at a cell the character is stored at AC, every other
byte of DDRAM is as before, and AC moves on within the row; after the last column AC is unknown. At any other address,
and with AC unknown, AC and DDRAM become unknown (the model's choice, log 12). Nothing is known of a display that has
not received initialize (the model's choice, log 26). -/
def Obligations.WriteCharSends : Prop :=
  ∀ (ch : Byte) (s : State), s.seq = .idle → s.booted = true → ∃ t, exec (.writeChar ch) s = .next t ∧
    Sent ⟨true, ch⟩ s t ∧ t.rs = .is .H ∧ HostSideKept s t ∧
    (s.display.progress = .done → DisplayModeKept s.display t.display ∧ t.display.progress = .done ∧
      t.display.shiftMoves = s.display.shiftMoves ∧
      (∀ a : DdramAddr, s.display.ac = .is a → (a.toNat < 0x10 ∨ (0x40 ≤ a.toNat ∧ a.toNat < 0x50)) →
        (∀ x : Nat, Memory.read t.display.ddram x =
          if x = a.toNat then some ch else Memory.read s.display.ddram x) ∧
        t.display.ac = if a.toNat = 0x0F ∨ a.toNat = 0x4F then .unknown else .is (a + 1)) ∧
      ((s.display.ac = .unknown ∨ ∃ a : DdramAddr, s.display.ac = .is a ∧
          ¬ (a.toNat < 0x10 ∨ (0x40 ≤ a.toNat ∧ a.toNat < 0x50))) →
        t.display.ac = .unknown ∧ DdramUnknown t.display)) ∧
    (s.display.progress ≠ .done → t.display = Display.unknown)

/-! Rejections and refusals. -/

/-- SET_ADDRESS above 0x7F is rejected with AddressOutOfRange, code 2, carrying the value, as an instruction and as
an operation: the fault goes to the host and nothing else of the state changes but the record of the rejection;
set_cursor never raises it. -/
def Obligations.AddressOutOfRangeRejected : Prop :=
  (∀ (addr : Nat) (s : State), addr > 0x7F → s.seq = .idle →
    exec (.setAddress addr) s = .next { s with faults := s.faults ++ [.addressOutOfRange addr] } ∧
    callOperation (.setAddress addr) s =
      .next { s with faults := s.faults ++ [.addressOutOfRange addr],
                     rejected := s.rejected ++ [.setAddress addr] } ∧
    (HostFault.addressOutOfRange addr).code = 2) ∧
  (∀ col row addr : Nat, (Operation.setCursor col row).fault ≠ some (.addressOutOfRange addr))

/-- set_cursor outside [0,15] × [0,1] is rejected with CursorOutOfRange, code 1, carrying the pair: the fault goes to
the host and nothing else of the state changes but the record of the rejection. -/
def Obligations.CursorOutOfRangeRejected : Prop :=
  ∀ (col row : Nat) (s : State), (col > 15 ∨ row > 1) → s.seq = .idle →
    callOperation (.setCursor col row) s =
      .next { s with faults := s.faults ++ [.cursorOutOfRange col row],
                     rejected := s.rejected ++ [.setCursor col row] } ∧
    (HostFault.cursorOutOfRange col row).code = 1

/-- The two rejections are all there are, each from the arguments alone: set_cursor outside the grid, and set_address
above 0x7F. No other operation raises a fault. -/
def Obligations.OnlyTwoOperationsReject : Prop :=
  ∀ (op : Operation) (f : HostFault), op.fault = some f ↔
    (∃ col row : Nat, op = .setCursor col row ∧ (col > 15 ∨ row > 1) ∧ f = .cursorOutOfRange col row) ∨
    (∃ addr : Nat, op = .setAddress addr ∧ addr > 0x7F ∧ f = .addressOutOfRange addr)

/-- After a rejection the block is at once ready for the next operation: a run goes on from the state before the
rejected call, with the fault delivered. -/
def Obligations.RunGoesOnAfterRejection : Prop :=
  ∀ (op : Operation) (f : HostFault) (rest : List Operation) (s : State),
    op.fault = some f → s.seq = .idle →
    runOperations (op :: rest) s =
      runOperations rest { s with faults := s.faults ++ [f], rejected := s.rejected ++ [op] }

/-- Nothing starts while an operation is in progress: neither an instruction nor an operation. -/
def Obligations.NothingStartsInProgress : Prop :=
  ∀ (n : Nat) (s : State), s.seq = .pos n →
    (∀ i : Instr, exec i s = .refused .operationInProgress) ∧
    (∀ op : Operation, callOperation op s = .refused .operationInProgress ∧
      startOperation op s = .refused .operationInProgress)

/-- A send that would start before SCK and LAT are low is refused by name, and so from the reset state itself (the
model's reading of R232, log 2). -/
def Obligations.UnbootedSendRefused : Prop :=
  (∀ (i : Instr) (s : State), i.wellFormed = true → s.seq = .idle → (s.sck ≠ .is .L ∨ s.lat ≠ .is .L) →
    exec i s = .refused .bootRequirement) ∧
  (∀ i : Instr, i.wellFormed = true → exec i State.reset = .refused .bootRequirement)

/-! The operations. -/

/-- initialize sends 0x38, 0x01, 0x02, 0x0C as instructions, in that order, and performs no other event; it leaves
RS, SER, SCK and LAT low. -/
def Obligations.InitializeSendsFourWords : Prop :=
  ∀ s : State, s.seq = .idle → s.booted = true → ∃ t, callOperation .initializeDisplay s = .next t ∧
    t.words = s.words ++ [⟨false, 0x38⟩, ⟨false, 0x01⟩, ⟨false, 0x02⟩, ⟨false, 0x0C⟩] ∧
    t.trace = s.trace ++ sendEvents Config.latchVariant Config.timing ⟨false, 0x38⟩ ++
      sendEvents Config.latchVariant Config.timing ⟨false, 0x01⟩ ++
      sendEvents Config.latchVariant Config.timing ⟨false, 0x02⟩ ++
      sendEvents Config.latchVariant Config.timing ⟨false, 0x0C⟩ ∧
    t.trace.length = s.trace.length + (match Config.latchVariant with | .single => 216 | .double => 228) ∧
    t.rs = .is .L ∧ t.ser = .is .L ∧ t.sck = .is .L ∧ t.lat = .is .L ∧ t.seq = .idle ∧
    t.accepted = s.accepted ++ [.initializeDisplay] ∧ t.rejected = s.rejected ∧ t.faults = s.faults

/-- initialize puts the display into a defined configuration from any state: 8-bit bus, two lines, 5 by 8 font, display
on, cursor and blink off. Where Clear and Home leave AC, DDRAM and the shift state is not in the source, so they are
unknown (the model's choice, log 12 and log 15; that this counts as configured is log 26). -/
def Obligations.InitializeConfiguresTheDisplay : Prop :=
  ∀ s : State, s.seq = .idle → s.booted = true → ∃ t, callOperation .initializeDisplay s = .next t ∧
    t.display.busWidth = .is .eightBit ∧ t.display.displayLines = .is .two ∧ t.display.font = .is .dots5x8 ∧
    t.display.displayOn = .is true ∧ t.display.cursorOn = .is false ∧ t.display.blinkOn = .is false ∧
    t.display.ac = .unknown ∧ DdramUnknown t.display ∧ t.display.shiftMoves = [] ∧ t.display.progress = .done

/-- clear, home, power_control, shift and set_address in its range each send their one word and are accepted. -/
def Obligations.OneWordOperations : Prop :=
  ∀ s : State, s.seq = .idle → s.booted = true → ∀ (op : Operation) (b : Nat),
    (op = .clear ∧ b = 0x01) ∨ (op = .home ∧ b = 0x02) ∨
    (∃ x y z : Bool, op = .powerControl x y z ∧ b = 0x08 + 4 * x.toNat + 2 * y.toNat + 1 * z.toNat) ∨
    (∃ (x : ShiftTarget) (y : Direction), op = .shift x y ∧
      b = 0x10 + 8 * (if x = .display then 1 else 0) + 4 * (if y = .right then 1 else 0)) ∨
    (∃ addr, addr ≤ 0x7F ∧ op = .setAddress addr ∧ b = (0x80 ||| addr)) →
    ∃ t, callOperation op s = .next t ∧ Sent ⟨false, BitVec.ofNat 8 b⟩ s t ∧ t.seq = .idle ∧ t.job = s.job ∧
      t.port = s.port ∧ t.accepted = s.accepted ++ [op] ∧ t.rejected = s.rejected ∧ t.faults = s.faults

/-- set_cursor at a position of the grid sends 0:0x80 | (0x40·row + col); at any other position it is rejected before
any event. What it does to the display is SetCursorSetsTheAddress. -/
def Obligations.SetCursorSends : Prop :=
  ∀ (col row : Nat) (s : State), s.seq = .idle → s.booted = true → ∃ t, callOperation (.setCursor col row) s = .next t ∧
    (col ≤ 15 ∧ row ≤ 1 → Sent ⟨false, BitVec.ofNat 8 (0x80 ||| (0x40 * row + col))⟩ s t ∧
      t.accepted = s.accepted ++ [.setCursor col row] ∧ t.faults = s.faults) ∧
    (¬ (col ≤ 15 ∧ row ≤ 1) → t.words = s.words ∧ t.trace = s.trace ∧
      t.faults = s.faults ++ [.cursorOutOfRange col row])

/-- set_cursor at a position of the grid sets the address register of a configured display to 0x40·row + col and leaves
its other fields and DDRAM; nothing is known of a display that has not received initialize (the model's choice,
log 26). -/
def Obligations.SetCursorSetsTheAddress : Prop :=
  ∀ (col row : Nat) (s : State), s.seq = .idle → s.booted = true → col ≤ 15 → row ≤ 1 →
    ∃ t, callOperation (.setCursor col row) s = .next t ∧
    (s.display.progress = .done →
      t.display = { s.display with ac := .is (BitVec.ofNat 7 (0x40 * row + col)) }) ∧
    (s.display.progress ≠ .done → t.display = Display.unknown)

/-- print sends one data word for each character, first to last, whatever the length: the empty text performs no
event, and every word is sent with RS high. A character that does not fit one byte is refused by name before any
event. -/
def Obligations.PrintSendsEachCharacter : Prop :=
  ∀ (text : List Nat) (s : State), s.seq = .idle → s.booted = true →
    ((∀ c ∈ text, c ≤ 255) → ∃ t, callOperation (.print text) s = .next t ∧
      t.words = s.words ++ text.map (fun c => ⟨true, BitVec.ofNat 8 c⟩) ∧
      t.trace = s.trace ++ text.flatMap (fun c =>
        sendEvents Config.latchVariant Config.timing ⟨true, BitVec.ofNat 8 c⟩) ∧
      t.trace.length = s.trace.length + text.length * (match Config.latchVariant with | .single => 54 | .double => 57) ∧
      (text ≠ [] → t.rs = .is .H) ∧ (text = [] → t.trace = s.trace) ∧
      t.seq = .idle ∧ t.accepted = s.accepted ++ [.print text] ∧ t.faults = s.faults) ∧
    ((∃ c ∈ text, 255 < c) → ∃ c ∈ text, 255 < c ∧ callOperation (.print text) s = .refused (.wideCharacter c))

/-- A reserved word offered to send is transmitted like any other; the display's state is unknown after it (the
model's reading of U7, log 14). -/
def Obligations.ReservedWordTransmitted : Prop :=
  ∀ (b : Byte) (s : State), decodeWord ⟨false, b⟩ = .reserved b → s.seq = .idle → s.booted = true →
    ∃ t, callOperation (.send false b) s = .next t ∧ Sent ⟨false, b⟩ s t ∧ t.seq = .idle ∧
      t.display = Display.unknown ∧ t.accepted = s.accepted ++ [.send false b] ∧ t.faults = s.faults

/-- translate maps the 32 positions one to one to the addresses 0x40·row + col, its image is the two rows of cells,
and row and column are read back from the address. -/
def Obligations.TranslationIsBijective : Prop :=
  (∀ col row : Nat, col ≤ 15 → row ≤ 1 → ∃ a : DdramAddr, translateCursor col row = .addr a ∧
    a.toNat = 0x40 * row + col ∧ (a.getLsbD 6).toNat = row ∧ (a.extractLsb' 0 4).toNat = col ∧
    a.extractLsb' 4 2 = 0) ∧
  (∀ col row : Nat, (col > 15 ∨ row > 1) → translateCursor col row = .raises (.cursorOutOfRange col row)) ∧
  (∀ a : DdramAddr, (a.toNat < 0x10 ∨ (0x40 ≤ a.toNat ∧ a.toNat < 0x50)) ↔
    ∃ col row : Nat, col ≤ 15 ∧ row ≤ 1 ∧ translateCursor col row = .addr a)

/-- Text printed within a row of a display that initialize has configured (log 26; before that nothing is known of it,
as SetAddressSends and WriteCharSends state) lands at consecutive columns: after set_cursor((c, row)) and a print of k
characters with c + k ≤ 16, column c + j of the row holds character j, and every other byte of DDRAM is as before. -/
def Obligations.PrintLandsWithinTheRow : Prop :=
  ∀ (c row : Nat) (text : List Nat) (s : State), s.seq = .idle → s.booted = true → s.display.progress = .done →
    row ≤ 1 → c ≤ 15 → c + text.length ≤ 16 → (∀ ch ∈ text, ch ≤ 255) →
    ∃ t, runOperations [.setCursor c row, .print text] s = .next t ∧
      (∀ j : Nat, j < text.length → Memory.read t.display.ddram (0x40 * row + c + j) =
        (text[j]?).map (fun ch => BitVec.ofNat 8 ch)) ∧
      (∀ a : Nat, (a < 0x40 * row + c ∨ 0x40 * row + c + text.length ≤ a) →
        Memory.read t.display.ddram a = Memory.read s.display.ddram a) ∧
      (c + text.length ≤ 15 → t.display.ac = .is (BitVec.ofNat 7 (0x40 * row + c + text.length)))

/-- The words and events of a run are those of its operations, in order, whatever ran before, and a run of two lists
is the second run after the first. -/
def Obligations.RunsCompose : Prop :=
  ∀ (p q : List Operation) (s t : State), s.seq = .idle → runOperations p s = .next t →
    t.seq = .idle ∧ runOperations (p ++ q) s = runOperations q t ∧
    t.words = s.words ++ p.flatMap Operation.words ∧ t.trace = s.trace ++ p.flatMap Operation.events

/-! The whole machine. -/

/-- What an instruction sends does not depend on what the block has done before: the same words and the same events
from any two states. -/
def Obligations.InstructionsAreStateless : Prop :=
  ∀ (i : Instr) (s s' t t' : State), exec i s = .next t → exec i s' = .next t' →
    ∃ (ws : List TWord) (es : List Event) (fs : List HostFault),
      (t.words = s.words ++ ws ∧ t.trace = s.trace ++ es ∧ t.faults = s.faults ++ fs) ∧
      (t'.words = s'.words ++ ws ∧ t'.trace = s'.trace ++ es ∧ t'.faults = s'.faults ++ fs)

/-- A step runs the decoded instruction: when the next call is a send of a word that decodes to `i`, the step is exec
of `i` after the call has been taken from the port and recorded as accepted. The block itself never decodes and the
spec gives it no port: that a send waits in a port (log 4), is taken whole (log 5), is admitted as a call and run as the
instruction its word decodes to (log 19), and is recorded (log 24) are the model's choices. -/
def Obligations.StepRunsTheDecodedInstruction : Prop :=
  ∀ (s : State) (T : TWord) (i : Instr) (rest : List Call), s.seq = .idle →
    s.port = ⟨.send T.rs T.byte, .whole⟩ :: rest → decodeWord T = .instr i →
    step s = exec i { s with port := rest, accepted := s.accepted ++ [.send T.rs T.byte] }

/-- A word placed as the next instruction runs in the very next step, from any state, and is the word sent. -/
def Obligations.PlacedWordRunsNext : Prop :=
  ∀ (s : State) (nbits w : Nat) (i : Instr), decodeTableWord nbits w = some i →
    ∃ t, step (s.withFetchWord nbits w) = .next t ∧ t.words = s.words ++ [encode i] ∧ t.seq = .idle ∧
      t.port = s.port ∧ (encode i).bits.toNat = w % 2 ^ nbits

/-- With SEQ idle and no call waiting the block waits: the step changes nothing. -/
def Obligations.IdleBlockWaits : Prop :=
  ∀ s : State, s.seq = .idle → s.port = [] → step s = .next s

/-- A waiting call is taken in call order, one at a time: whole, it is the call; eventwise, it is its start. -/
def Obligations.CallsTakenInOrder : Prop :=
  ∀ (s : State) (op : Operation) (rest : List Call), s.seq = .idle →
    (s.port = ⟨op, .whole⟩ :: rest → step s = callOperation op { s with port := rest }) ∧
    (s.port = ⟨op, .eventwise⟩ :: rest → step s = startOperation op { s with port := rest })

/-- One step of an operation in progress performs event SEQ and advances SEQ by one; after the last event SEQ is
idle. -/
def Obligations.SeqAdvancesByOne : Prop :=
  ∀ (s : State) (n : Nat) (a : JobItem), s.seq = .pos n → s.job[n]? = some a → ∃ t, step s = .next t ∧
    t.trace = s.trace ++ [a.event] ∧
    (n + 1 < s.job.length → t.seq = .pos (n + 1) ∧ t.job = s.job) ∧
    (n + 1 = s.job.length → t.seq = .idle ∧ t.job = [])

/-- The small step through SEQ refines the big step: from SEQ idle with no operation in progress, a call taken eventwise
(the model's form of a call, log 5) and stepped through all its events ends
in the state of the call performed whole, or is refused alike. -/
def Obligations.SmallStepsRefineTheCall : Prop :=
  ∀ (s : State) (op : Operation) (rest : List Call), s.seq = .idle → s.job = [] →
    runSteps (op.events.length + 1) { s with port := ⟨op, .eventwise⟩ :: rest } =
      step { s with port := ⟨op, .whole⟩ :: rest }

/-- TRACE and WORDS only grow: a step appends to them and drops nothing. -/
def Obligations.HistoryOnlyGrows : Prop :=
  ∀ s t : State, step s = .next t →
    s.trace <+: t.trace ∧ s.words <+: t.words ∧ s.delivered <+: t.delivered ∧ s.faults <+: t.faults

/-- The events of every operation respect the line hazards: data is stable a bit time before the clock rises and until
a bit time after it has fallen, RS is not written during a byte or a latch pulse, and each latch phase is held. -/
def Obligations.OperationsRespectLineHazards : Prop :=
  ∀ (op : Operation) (s t : State), callOperation op s = .next t →
    ∃ es, t.trace = s.trace ++ es ∧ disciplined Config.timing es = true

/-- The invariant of every step: between operations WORDS and TRACE are those of the accepted operations, every word
has been delivered and the wires hold the last word; during one, running it to its end settles it; DDRAM keeps its
canonical form; the faults delivered are those of the rejected operations. Two clauses rest on the model's choices: that
DDRAM lists only cells, because the model forgets DDRAM on a store outside them (log 12), and that before initialize
nothing is known of AC, DDRAM and the power flags (U11; log 26). -/
def Obligations.StepKeepsInv : Prop :=
  ∀ s t : State, StateInv s → step s = .next t → StateInv t

/-- The invariant holds after reset, for every value of RESET_LINES. -/
def Obligations.ResetHasInv : Prop := ∀ lines : ResetLines, StateInv (State.resetWith lines)

/-- Nothing faults: from a state that meets the invariant a step never stops the machine with a fault. -/
def Obligations.NoStepFaults : Prop := ∀ (s : State) (f : Fault), StateInv s → step s ≠ .fault f

/-- The reset table: all four lines, both shift-register stages, every display-side field and all of DDRAM unknown,
SEQ idle, TRACE and WORDS empty. That no shift is listed is how the model says the shift state is unknown (log 15), and
that no word of initialize has been received is a field of the model's own (log 26). -/
def Obligations.ResetTable : Prop :=
  State.reset.ser = .unknown ∧ State.reset.rs = .unknown ∧ State.reset.sck = .unknown ∧ State.reset.lat = .unknown ∧
  State.reset.seq = .idle ∧ State.reset.trace = [] ∧ State.reset.words = [] ∧
  State.reset.srShift = SrBits.unknown ∧ State.reset.srOut = SrBits.unknown ∧
  State.reset.display.progress = .notStarted ∧
  State.reset.display.busWidth = .unknown ∧ State.reset.display.displayLines = .unknown ∧
  State.reset.display.font = .unknown ∧ State.reset.display.displayOn = .unknown ∧
  State.reset.display.cursorOn = .unknown ∧ State.reset.display.blinkOn = .unknown ∧
  State.reset.display.ac = .unknown ∧ State.reset.display.shiftMoves = [] ∧
  (∀ a : Nat, Memory.read State.reset.display.ddram a = none)

/-- DDRAM: a read after a write gives the byte written at its address and the old byte elsewhere, and the write keeps
the canonical form. -/
def Obligations.DdramWriteThenRead : Prop :=
  ∀ (m : Memory) (a : DdramAddr) (v : Byte), Memory.wf m →
    Memory.wf (Memory.write m a.toNat v) ∧
    ∀ x : Nat, Memory.read (Memory.write m a.toNat v) x = if x = a.toNat then some v else Memory.read m x

/-- What a display latches for one send, by the instant it samples and the latch variant: sampling at the falling
edge it latches the word once (single) or twice (double); sampling at the rising edge before the commit it latches
the previous byte with the new RS, and in the double variant the word after it. -/
def Obligations.LatchedByStrobeSampling : Prop :=
  ∀ (t : Timing) (T : TWord) (s : State), s.booted = true →
    let old : Sample := ⟨.is (Level.ofBool T.rs), s.srOut⟩
    let new : Sample := ⟨.is (Level.ofBool T.rs), SrBits.ofByte T.byte⟩
    latchedSamples .falling s (sendEvents .single t T) = [new] ∧
    latchedSamples .falling s (sendEvents .double t T) = [new, new] ∧
    latchedSamples .risingBeforeCommit s (sendEvents .single t T) = [old] ∧
    latchedSamples .risingBeforeCommit s (sendEvents .double t T) = [old, new]
end

