-- ==== Sys2Proof/Laws/Decode.lean ====
section
/-! SUPPORT. The bits of a transmission word (`30_encoding.md` R80). -/

namespace Sys2Proof

/-- Bits 7 to 0 of a word are its byte and bit 8 is its register-select flag. -/
theorem TWord.bits_getLsbD (T : TWord) (i : Nat) :
    T.bits.getLsbD i = if i < 8 then T.byte.getLsbD i else (decide (i = 8) && T.rs) := by
  simp only [TWord.bits, BitVec.getLsbD_cast, BitVec.getLsbD_append, BitVec.getLsbD_ofBool]
  split
  · rfl
  · congr 1
    simp only [decide_eq_decide]
    omega

/-- The 9 bits of a word are that word again. -/
theorem TWord.ofBits_bits (T : TWord) : TWord.ofBits T.bits = T := by
  obtain ⟨rs, byte⟩ := T
  simp only [TWord.ofBits, TWord.mk.injEq]
  refine ⟨by rw [TWord.bits_getLsbD]; simp, BitVec.eq_of_getLsbD_eq fun i hi => ?_⟩
  simp [TWord.bits_getLsbD, hi]

/-- 9 bits are the bits of the word they are. -/
theorem TWord.bits_ofBits (w : BitVec 9) : (TWord.ofBits w).bits = w := by
  refine BitVec.eq_of_getLsbD_eq fun i hi => ?_
  rw [TWord.bits_getLsbD]
  simp only [TWord.ofBits, BitVec.getLsbD_setWidth]
  split
  · simp [*]
  · obtain rfl : i = 8 := by omega
    simp

end Sys2Proof
end

