-- ==== Sys2Proof/Laws/Display.lean ====
section
/-! SUPPORT. What the display does on receiving a word: the effect of an instruction once initialize has been received,
what is unknown before, and that DDRAM keeps its canonical form. -/

namespace Sys2Proof.Machine

@[simp] theorem Display.storeChar_progress (d : Display) (ch : Byte) : (d.storeChar ch).progress = d.progress := by
  unfold Display.storeChar
  split
  · rfl
  · split <;> rfl

@[simp] theorem Display.act_progress (d : Display) (i : Instr) : (d.act i).progress = d.progress := by
  cases i <;> first | rfl | exact d.storeChar_progress _

/-- A reserved word leaves nothing known. -/
theorem Display.receive_reserved {T : TWord} {b : Byte} (h : decodeWord T = .reserved b) (d : Display) :
    d.receive T = Display.unknown := by
  rw [Display.receive, h]

/-- Once initialize has been received, a word has its instruction's effect. -/
theorem Display.receive_done {d : Display} {T : TWord} {i : Instr} (hd : d.progress = .done)
    (h : decodeWord T = .instr i) : d.receive T = d.act i := by
  have e : d.progress = (d.act i).progress := (d.act_progress i).symm
  rw [Display.receive, h, hd]
  show { d.act i with progress := InitProgress.done } = d.act i
  rw [← hd, e]

/-- A word that does not carry initialize on leaves nothing known. -/
theorem Display.receive_notStarted {d : Display} {T : TWord} {i : Instr} (h : decodeWord T = .instr i)
    (hp : d.progress.after i = .notStarted) : d.receive T = Display.unknown := by
  simp only [Display.receive, h, hp]

/-- A FUNCTION_SET before initialize is complete begins it on a display of which nothing is known. -/
theorem Display.receive_begins {d : Display} {T : TWord} {i : Instr} (h : decodeWord T = .instr i)
    (hp : d.progress.after i = .functionSet) :
    d.receive T = { Display.unknown.act i with progress := .functionSet } := by
  simp only [Display.receive, h, hp]

/-- Everything a word can do to a display: nothing is known after it, or it begins initialize, or it has its
instruction's effect. -/
theorem Display.receive_cases (d : Display) (T : TWord) :
    d.receive T = Display.unknown ∨
    (∃ i, decodeWord T = .instr i ∧ d.receive T = { Display.unknown.act i with progress := .functionSet }) ∨
    ∃ i, decodeWord T = .instr i ∧ d.receive T = { d.act i with progress := d.progress.after i } := by
  cases h : decodeWord T with
  | reserved b => exact .inl (Display.receive_reserved h d)
  | instr i =>
    cases hp : d.progress.after i with
    | notStarted => exact .inl (Display.receive_notStarted h hp)
    | functionSet => exact .inr (.inl ⟨i, rfl, Display.receive_begins h hp⟩)
    | clear | home | done => exact .inr (.inr ⟨i, rfl, by simp only [Display.receive, h, hp]⟩)

/-- The effect of an instruction keeps the canonical form of DDRAM. -/
theorem Display.act_wf {d : Display} (i : Instr) (h : Memory.wf d.ddram) : Memory.wf (d.act i).ddram := by
  have hu : Memory.wf Memory.unknown := by simp [Memory.wf, Memory.unknown]
  cases i with
  | functionSet | powerControl | setAddress => exact h
  | clear | home | shift => exact hu
  | writeChar ch =>
    show Memory.wf (d.storeChar ch).ddram
    unfold Display.storeChar
    split
    · exact hu
    · split
      · exact Memory.write_wf h (BitVec.isLt _)
      · exact hu

/-- Every display keeps the canonical form of its DDRAM on receiving a word. -/
theorem Display.receive_wf {d : Display} (T : TWord) (h : Memory.wf d.ddram) : Memory.wf (d.receive T).ddram := by
  have hu : Memory.wf Display.unknown.ddram := by simp [Memory.wf, Display.unknown]
  rcases d.receive_cases T with e | ⟨i, -, e⟩ | ⟨i, -, e⟩ <;> rw [e]
  · exact hu
  · exact Display.act_wf i hu
  · exact Display.act_wf i h

end Sys2Proof.Machine
end

