-- ==== Sys2Proof/Laws/Observation.lean ====
section
/-! SUPPORT. The projections and the requested time of a list of events, part by part. -/

namespace Sys2Proof.Machine

@[simp] theorem requestedUs_nil : requestedUs [] = 0 := rfl

@[simp] theorem requestedUs_cons (e : Event) (es : List Event) :
    requestedUs (e :: es) = e.requestedUs + requestedUs es := by
  simp [requestedUs]

@[simp] theorem requestedUs_append (es fs : List Event) :
    requestedUs (es ++ fs) = requestedUs es + requestedUs fs := by
  simp [requestedUs]

@[simp] theorem lineProjection_append (es fs : List Event) :
    lineProjection (es ++ fs) = lineProjection es ++ lineProjection fs := by
  simp [lineProjection]

/-- A bit cycle requests three bit times (R112). -/
theorem requestedUs_bitEvents (t : Timing) (v : Level) : requestedUs (bitEvents t v) = 3 * t.tBitUs := by
  simp only [bitEvents, requestedUs_cons, requestedUs_nil, Event.requestedUs, Duration.inUs]
  omega

/-- shift_out requests 24 bit times (R112). -/
theorem requestedUs_shiftOutEvents (t : Timing) (b : Byte) (order : BitOrder) :
    requestedUs (shiftOutEvents t b order) = 24 * t.tBitUs := by
  simp only [shiftOutEvents, List.flatMap_cons, List.flatMap_nil, requestedUs_append, requestedUs_bitEvents,
    requestedUs_nil]
  omega

/-- latch_pulse requests two latch times (R123). -/
theorem requestedUs_latchPulseEvents (t : Timing) : requestedUs (latchPulseEvents t) = 2 * t.tLatchUs := by
  simp only [latchPulseEvents, requestedUs_cons, requestedUs_nil, Event.requestedUs, Duration.inUs]
  omega

/-- No event of a bit cycle writes LAT or RS (R112). -/
theorem bitEvents_writes (t : Timing) (v : Level) : ∀ e ∈ bitEvents t v, e.writes .lat = false ∧ e.writes .rs = false := by
  simp [bitEvents, Event.writes]

/-- No event of shift_out writes LAT or RS (R112). -/
theorem shiftOutEvents_writes (t : Timing) (b : Byte) (order : BitOrder) :
    ∀ e ∈ shiftOutEvents t b order, e.writes .lat = false ∧ e.writes .rs = false := by
  intro e he
  obtain ⟨i, -, he⟩ := List.mem_flatMap.mp he
  exact bitEvents_writes t _ e he

end Sys2Proof.Machine
end

