-- ==== Sys2Proof/Laws/State.lean ====
section
/-! SUPPORT. One lemma for each field of State under each named update, so that no proof unfolds a record update. -/

namespace Sys2Proof.Machine

section Perform
variable (s : State) (e : Event)

/-! An event changes the lines, the shift register and TRACE, and nothing else. -/

@[simp] theorem State.perform_seq : (s.perform e).seq = s.seq := by unfold State.perform; split <;> rfl
@[simp] theorem State.perform_job : (s.perform e).job = s.job := by unfold State.perform; split <;> rfl
@[simp] theorem State.perform_trace : (s.perform e).trace = s.trace ++ [e] := by
  unfold State.perform; split <;> rfl
@[simp] theorem State.perform_words : (s.perform e).words = s.words := by unfold State.perform; split <;> rfl
@[simp] theorem State.perform_display : (s.perform e).display = s.display := by
  unfold State.perform; split <;> rfl
@[simp] theorem State.perform_delivered : (s.perform e).delivered = s.delivered := by
  unfold State.perform; split <;> rfl
@[simp] theorem State.perform_accepted : (s.perform e).accepted = s.accepted := by
  unfold State.perform; split <;> rfl
@[simp] theorem State.perform_rejected : (s.perform e).rejected = s.rejected := by
  unfold State.perform; split <;> rfl
@[simp] theorem State.perform_faults : (s.perform e).faults = s.faults := by unfold State.perform; split <;> rfl
@[simp] theorem State.perform_port : (s.perform e).port = s.port := by unfold State.perform; split <;> rfl

end Perform

section Lines
variable (s : State) (v : Level)

/-! Each line write sets its own line and leaves the other three (R22). -/

@[simp] theorem State.perform_ser_ser : (s.perform (.write .ser v)).ser = .is v := rfl
@[simp] theorem State.perform_ser_sck : (s.perform (.write .ser v)).sck = s.sck := rfl
@[simp] theorem State.perform_ser_lat : (s.perform (.write .ser v)).lat = s.lat := rfl
@[simp] theorem State.perform_ser_rs : (s.perform (.write .ser v)).rs = s.rs := rfl
@[simp] theorem State.perform_ser_srShift : (s.perform (.write .ser v)).srShift = s.srShift := rfl
@[simp] theorem State.perform_ser_srOut : (s.perform (.write .ser v)).srOut = s.srOut := rfl
@[simp] theorem State.perform_sck_ser : (s.perform (.write .sck v)).ser = s.ser := rfl
@[simp] theorem State.perform_sck_sck : (s.perform (.write .sck v)).sck = .is v := rfl
@[simp] theorem State.perform_sck_lat : (s.perform (.write .sck v)).lat = s.lat := rfl
@[simp] theorem State.perform_sck_rs : (s.perform (.write .sck v)).rs = s.rs := rfl
@[simp] theorem State.perform_sck_srShift : (s.perform (.write .sck v)).srShift = s.shiftAfter v := rfl
@[simp] theorem State.perform_sck_srOut : (s.perform (.write .sck v)).srOut = s.srOut := rfl
@[simp] theorem State.perform_lat_ser : (s.perform (.write .lat v)).ser = s.ser := rfl
@[simp] theorem State.perform_lat_sck : (s.perform (.write .lat v)).sck = s.sck := rfl
@[simp] theorem State.perform_lat_lat : (s.perform (.write .lat v)).lat = .is v := rfl
@[simp] theorem State.perform_lat_rs : (s.perform (.write .lat v)).rs = s.rs := rfl
@[simp] theorem State.perform_lat_srShift : (s.perform (.write .lat v)).srShift = s.srShift := rfl
@[simp] theorem State.perform_lat_srOut : (s.perform (.write .lat v)).srOut = s.outAfter v := rfl
@[simp] theorem State.perform_rs_ser : (s.perform (.write .rs v)).ser = s.ser := rfl
@[simp] theorem State.perform_rs_sck : (s.perform (.write .rs v)).sck = s.sck := rfl
@[simp] theorem State.perform_rs_lat : (s.perform (.write .rs v)).lat = s.lat := rfl
@[simp] theorem State.perform_rs_rs : (s.perform (.write .rs v)).rs = .is v := rfl
@[simp] theorem State.perform_rs_srShift : (s.perform (.write .rs v)).srShift = s.srShift := rfl
@[simp] theorem State.perform_rs_srOut : (s.perform (.write .rs v)).srOut = s.srOut := rfl

end Lines

section Wait
variable (s : State) (d : Duration)

/-! A wait leaves every line and the shift register (R212). -/

@[simp] theorem State.perform_wait_ser : (s.perform (.wait d)).ser = s.ser := rfl
@[simp] theorem State.perform_wait_sck : (s.perform (.wait d)).sck = s.sck := rfl
@[simp] theorem State.perform_wait_lat : (s.perform (.wait d)).lat = s.lat := rfl
@[simp] theorem State.perform_wait_rs : (s.perform (.wait d)).rs = s.rs := rfl
@[simp] theorem State.perform_wait_srShift : (s.perform (.wait d)).srShift = s.srShift := rfl
@[simp] theorem State.perform_wait_srOut : (s.perform (.wait d)).srOut = s.srOut := rfl

end Wait

section RecordWord
variable (s : State) (T : TWord)

@[simp] theorem State.recordWord_ser : (s.recordWord T).ser = s.ser := rfl
@[simp] theorem State.recordWord_sck : (s.recordWord T).sck = s.sck := rfl
@[simp] theorem State.recordWord_lat : (s.recordWord T).lat = s.lat := rfl
@[simp] theorem State.recordWord_rs : (s.recordWord T).rs = s.rs := rfl
@[simp] theorem State.recordWord_seq : (s.recordWord T).seq = s.seq := rfl
@[simp] theorem State.recordWord_job : (s.recordWord T).job = s.job := rfl
@[simp] theorem State.recordWord_trace : (s.recordWord T).trace = s.trace := rfl
@[simp] theorem State.recordWord_words : (s.recordWord T).words = s.words ++ [T] := rfl
@[simp] theorem State.recordWord_srShift : (s.recordWord T).srShift = s.srShift := rfl
@[simp] theorem State.recordWord_srOut : (s.recordWord T).srOut = s.srOut := rfl
@[simp] theorem State.recordWord_display : (s.recordWord T).display = s.display := rfl
@[simp] theorem State.recordWord_delivered : (s.recordWord T).delivered = s.delivered := rfl
@[simp] theorem State.recordWord_accepted : (s.recordWord T).accepted = s.accepted := rfl
@[simp] theorem State.recordWord_rejected : (s.recordWord T).rejected = s.rejected := rfl
@[simp] theorem State.recordWord_faults : (s.recordWord T).faults = s.faults := rfl
@[simp] theorem State.recordWord_port : (s.recordWord T).port = s.port := rfl

end RecordWord

section Deliver
variable (s : State) (T : TWord)

@[simp] theorem State.deliver_ser : (s.deliver T).ser = s.ser := rfl
@[simp] theorem State.deliver_sck : (s.deliver T).sck = s.sck := rfl
@[simp] theorem State.deliver_lat : (s.deliver T).lat = s.lat := rfl
@[simp] theorem State.deliver_rs : (s.deliver T).rs = s.rs := rfl
@[simp] theorem State.deliver_seq : (s.deliver T).seq = s.seq := rfl
@[simp] theorem State.deliver_job : (s.deliver T).job = s.job := rfl
@[simp] theorem State.deliver_trace : (s.deliver T).trace = s.trace := rfl
@[simp] theorem State.deliver_words : (s.deliver T).words = s.words := rfl
@[simp] theorem State.deliver_srShift : (s.deliver T).srShift = s.srShift := rfl
@[simp] theorem State.deliver_srOut : (s.deliver T).srOut = s.srOut := rfl
@[simp] theorem State.deliver_display : (s.deliver T).display = s.display.receive T := rfl
@[simp] theorem State.deliver_delivered : (s.deliver T).delivered = s.delivered ++ [T] := rfl
@[simp] theorem State.deliver_accepted : (s.deliver T).accepted = s.accepted := rfl
@[simp] theorem State.deliver_rejected : (s.deliver T).rejected = s.rejected := rfl
@[simp] theorem State.deliver_faults : (s.deliver T).faults = s.faults := rfl
@[simp] theorem State.deliver_port : (s.deliver T).port = s.port := rfl

end Deliver

section Raise
variable (s : State) (f : HostFault)

@[simp] theorem State.raise_ser : (s.raise f).ser = s.ser := rfl
@[simp] theorem State.raise_sck : (s.raise f).sck = s.sck := rfl
@[simp] theorem State.raise_lat : (s.raise f).lat = s.lat := rfl
@[simp] theorem State.raise_rs : (s.raise f).rs = s.rs := rfl
@[simp] theorem State.raise_seq : (s.raise f).seq = s.seq := rfl
@[simp] theorem State.raise_job : (s.raise f).job = s.job := rfl
@[simp] theorem State.raise_trace : (s.raise f).trace = s.trace := rfl
@[simp] theorem State.raise_words : (s.raise f).words = s.words := rfl
@[simp] theorem State.raise_srShift : (s.raise f).srShift = s.srShift := rfl
@[simp] theorem State.raise_srOut : (s.raise f).srOut = s.srOut := rfl
@[simp] theorem State.raise_display : (s.raise f).display = s.display := rfl
@[simp] theorem State.raise_delivered : (s.raise f).delivered = s.delivered := rfl
@[simp] theorem State.raise_accepted : (s.raise f).accepted = s.accepted := rfl
@[simp] theorem State.raise_rejected : (s.raise f).rejected = s.rejected := rfl
@[simp] theorem State.raise_faults : (s.raise f).faults = s.faults ++ [f] := rfl
@[simp] theorem State.raise_port : (s.raise f).port = s.port := rfl

end Raise

section RecordOperation
variable (s : State) (op : Operation)

@[simp] theorem State.recordOperation_ser : (s.recordOperation op).ser = s.ser := by
  unfold State.recordOperation; split <;> rfl
@[simp] theorem State.recordOperation_sck : (s.recordOperation op).sck = s.sck := by
  unfold State.recordOperation; split <;> rfl
@[simp] theorem State.recordOperation_lat : (s.recordOperation op).lat = s.lat := by
  unfold State.recordOperation; split <;> rfl
@[simp] theorem State.recordOperation_rs : (s.recordOperation op).rs = s.rs := by
  unfold State.recordOperation; split <;> rfl
@[simp] theorem State.recordOperation_seq : (s.recordOperation op).seq = s.seq := by
  unfold State.recordOperation; split <;> rfl
@[simp] theorem State.recordOperation_job : (s.recordOperation op).job = s.job := by
  unfold State.recordOperation; split <;> rfl
@[simp] theorem State.recordOperation_trace : (s.recordOperation op).trace = s.trace := by
  unfold State.recordOperation; split <;> rfl
@[simp] theorem State.recordOperation_words : (s.recordOperation op).words = s.words := by
  unfold State.recordOperation; split <;> rfl
@[simp] theorem State.recordOperation_srShift : (s.recordOperation op).srShift = s.srShift := by
  unfold State.recordOperation; split <;> rfl
@[simp] theorem State.recordOperation_srOut : (s.recordOperation op).srOut = s.srOut := by
  unfold State.recordOperation; split <;> rfl
@[simp] theorem State.recordOperation_display : (s.recordOperation op).display = s.display := by
  unfold State.recordOperation; split <;> rfl
@[simp] theorem State.recordOperation_delivered : (s.recordOperation op).delivered = s.delivered := by
  unfold State.recordOperation; split <;> rfl
@[simp] theorem State.recordOperation_faults : (s.recordOperation op).faults = s.faults := by
  unfold State.recordOperation; split <;> rfl
@[simp] theorem State.recordOperation_port : (s.recordOperation op).port = s.port := by
  unfold State.recordOperation; split <;> rfl
@[simp] theorem State.recordOperation_booted : (s.recordOperation op).booted = s.booted := by
  simp [State.booted]

/-- An operation without a fault is recorded as accepted. -/
theorem State.recordOperation_of_none {op : Operation} (h : op.fault = none) :
    s.recordOperation op = { s with accepted := s.accepted ++ [op] } := by
  simp [State.recordOperation, h]

/-- An operation with a fault is recorded as rejected. -/
theorem State.recordOperation_of_some {op : Operation} {f : HostFault} (h : op.fault = some f) :
    s.recordOperation op = { s with rejected := s.rejected ++ [op] } := by
  simp [State.recordOperation, h]

end RecordOperation

section Boot
variable (s : State)

@[simp] theorem State.boot_sck : s.boot.sck = .is .L := rfl
@[simp] theorem State.boot_lat : s.boot.lat = .is .L := rfl
@[simp] theorem State.boot_ser : s.boot.ser = s.ser := rfl
@[simp] theorem State.boot_rs : s.boot.rs = s.rs := rfl
@[simp] theorem State.boot_seq : s.boot.seq = s.seq := rfl
@[simp] theorem State.boot_trace : s.boot.trace = s.trace := rfl
@[simp] theorem State.boot_words : s.boot.words = s.words := rfl
@[simp] theorem State.boot_booted : s.boot.booted = true := rfl

/-- The boot requirement says what SCK and LAT hold (R232). -/
theorem State.booted_iff : s.booted = true ↔ s.sck = .is .L ∧ s.lat = .is .L := by
  simp [State.booted]

end Boot

end Sys2Proof.Machine
end

