-- ==== Sys2Proof/Laws/Ops.lean ====
section
/-! SUPPORT. What each shared operation does, said once: a job, the micro-operations, a send and its event list. -/

namespace Sys2Proof.Machine

/-! A job. -/

theorem State.performActions_append (s : State) (as bs : List JobItem) :
    s.performActions (as ++ bs) = (s.performActions as).performActions bs := by
  induction as generalizing s with
  | nil => rfl
  | cons a as ih => simp [State.performActions, ih]

section PerformAction
variable (s : State) (a : JobItem)

@[simp] theorem State.performAction_seq : (s.performAction a).seq = s.seq := by
  unfold State.performAction; split <;> simp
@[simp] theorem State.performAction_job : (s.performAction a).job = s.job := by
  unfold State.performAction; split <;> simp
@[simp] theorem State.performAction_port : (s.performAction a).port = s.port := by
  unfold State.performAction; split <;> simp
@[simp] theorem State.performAction_accepted : (s.performAction a).accepted = s.accepted := by
  unfold State.performAction; split <;> simp
@[simp] theorem State.performAction_rejected : (s.performAction a).rejected = s.rejected := by
  unfold State.performAction; split <;> simp
@[simp] theorem State.performAction_faults : (s.performAction a).faults = s.faults := by
  unfold State.performAction; split <;> simp
@[simp] theorem State.performAction_trace : (s.performAction a).trace = s.trace ++ [a.event] := by
  unfold State.performAction; split <;> simp

end PerformAction

section PerformActions
variable (s : State) (as : List JobItem)

@[simp] theorem State.performActions_seq : (s.performActions as).seq = s.seq := by
  induction as generalizing s with
  | nil => rfl
  | cons a as ih => simp [State.performActions, ih]
@[simp] theorem State.performActions_job : (s.performActions as).job = s.job := by
  induction as generalizing s with
  | nil => rfl
  | cons a as ih => simp [State.performActions, ih]
@[simp] theorem State.performActions_port : (s.performActions as).port = s.port := by
  induction as generalizing s with
  | nil => rfl
  | cons a as ih => simp [State.performActions, ih]
@[simp] theorem State.performActions_accepted : (s.performActions as).accepted = s.accepted := by
  induction as generalizing s with
  | nil => rfl
  | cons a as ih => simp [State.performActions, ih]
@[simp] theorem State.performActions_rejected : (s.performActions as).rejected = s.rejected := by
  induction as generalizing s with
  | nil => rfl
  | cons a as ih => simp [State.performActions, ih]
@[simp] theorem State.performActions_faults : (s.performActions as).faults = s.faults := by
  induction as generalizing s with
  | nil => rfl
  | cons a as ih => simp [State.performActions, ih]
@[simp] theorem State.performActions_trace :
    (s.performActions as).trace = s.trace ++ as.map JobItem.event := by
  induction as generalizing s with
  | nil => simp [State.performActions]
  | cons a as ih => simp [State.performActions, ih]

end PerformActions

/-! The micro-operations. -/

@[simp] theorem State.bitCycle_trace (s : State) (v : Level) :
    (s.bitCycle v).trace = s.trace ++ bitEvents Config.timing v := by
  simp [State.bitCycle, State.setLine, State.waitUs, bitEvents]

/-- shift_out appends the events of its steps (R110, R112). -/
@[simp] theorem State.shiftSteps_trace (s : State) (b : Byte) (order : BitOrder) (is : List Nat) :
    (s.shiftSteps b order is).trace =
      s.trace ++ is.flatMap (fun i => bitEvents Config.timing (bitLevel b (bitIndex order i))) := by
  induction is generalizing s with
  | nil => simp [State.shiftSteps]
  | cons i is ih => rw [State.shiftSteps, ih, State.bitCycle_trace, List.flatMap_cons, List.append_assoc]

@[simp] theorem State.shiftByte_trace (s : State) (b : Byte) (order : BitOrder) :
    (s.shiftByte b order).trace = s.trace ++ shiftOutEvents Config.timing b order :=
  State.shiftSteps_trace s b order _

/-- latch_pulse appends its four events (R120). -/
@[simp] theorem State.latchPulse_trace (s : State) :
    s.latchPulse.trace = s.trace ++ latchPulseEvents Config.timing := by
  simp [State.latchPulse, State.setLine, State.waitUs, latchPulseEvents]

/-- The tail of send appends the events of its variant (R130). -/
@[simp] theorem State.sendTail_trace (s : State) (v : LatchVariant) :
    (s.sendTail v).trace = s.trace ++ tailEvents v Config.timing := by
  cases v <;> simp [State.sendTail, tailEvents, State.waitMs]

/-- A bit cycle entered with the clock low shifts its bit in (R181). -/
theorem State.bitCycle_srShift (s : State) (v : Level) (h : s.sck = .is .L) :
    (s.bitCycle v).srShift = s.srShift.push (.is v) := by
  simp [State.bitCycle, State.setLine, State.waitUs, State.shiftAfter, h]

@[simp] theorem State.bitCycle_sck (s : State) (v : Level) : (s.bitCycle v).sck = .is .L := rfl
@[simp] theorem State.bitCycle_srOut (s : State) (v : Level) : (s.bitCycle v).srOut = s.srOut := rfl

/-! A send. -/

/-- The events of a send's job are its event list. -/
theorem sendActions_events (v : LatchVariant) (t : Timing) (T : TWord) :
    (sendActions v t T).map JobItem.event = sendEvents v t T := by
  cases v <;> rfl

/-- The events of a job are the event lists of its words, in order. -/
theorem jobOf_events (v : LatchVariant) (t : Timing) (Ts : List TWord) :
    (jobOf v t Ts).map JobItem.event = Ts.flatMap (sendEvents v t) := by
  induction Ts with
  | nil => rfl
  | cons T Ts ih =>
    simp only [jobOf, List.flatMap_cons, List.map_append, sendActions_events] at ih ⊢
    rw [ih]

/-- A send, as the pseudocode has it, is its event list performed in order. -/
theorem State.send_eq (s : State) (T : TWord) :
    s.send T = s.performActions (sendActions Config.latchVariant Config.timing T) := by
  unfold State.send
  generalize Config.latchVariant = v
  cases v <;> rfl

/-- The sends of several words are their job performed in order. -/
theorem State.sendAll_eq (s : State) (Ts : List TWord) :
    s.sendAll Ts = s.performActions (jobOf Config.latchVariant Config.timing Ts) := by
  induction Ts generalizing s with
  | nil => rfl
  | cons T Ts ih =>
    rw [State.sendAll, ih, State.send_eq, ← State.performActions_append]
    rfl

section Send
variable (s : State) (T : TWord)

@[simp] theorem State.send_seq : (s.send T).seq = s.seq := by simp [State.send_eq]
@[simp] theorem State.send_job : (s.send T).job = s.job := by simp [State.send_eq]
@[simp] theorem State.send_port : (s.send T).port = s.port := by simp [State.send_eq]
@[simp] theorem State.send_accepted : (s.send T).accepted = s.accepted := by simp [State.send_eq]
@[simp] theorem State.send_rejected : (s.send T).rejected = s.rejected := by simp [State.send_eq]
@[simp] theorem State.send_faults : (s.send T).faults = s.faults := by simp [State.send_eq]
@[simp] theorem State.send_trace :
    (s.send T).trace = s.trace ++ sendEvents Config.latchVariant Config.timing T := by
  simp [State.send_eq, sendActions_events]
@[simp] theorem State.send_words : (s.send T).words = s.words ++ [T] := by
  unfold State.send
  generalize Config.latchVariant = v
  cases v <;> rfl
@[simp] theorem State.send_delivered : (s.send T).delivered = s.delivered ++ [T] := by
  unfold State.send
  generalize Config.latchVariant = v
  cases v <;> rfl
@[simp] theorem State.send_display : (s.send T).display = s.display.receive T := by
  unfold State.send
  generalize Config.latchVariant = v
  cases v <;> rfl

/-- A send leaves SCK and LAT low, whatever they were. -/
@[simp] theorem State.send_booted : (s.send T).booted = true := by
  unfold State.send
  generalize Config.latchVariant = v
  cases v <;> rfl

end Send

/-- What a send leaves on the wires, from the boot requirement (R134, R184). -/
theorem State.send_wires (s : State) (T : TWord) (h : s.booted = true) : WiresHold T (s.send T) := by
  obtain ⟨hsck, hlat⟩ := s.booted_iff.mp h
  obtain ⟨ser, sck, lat, rs, seq, job, trace, words, srShift, srOut, display, delivered, accepted, rejected,
    faults, port⟩ := s
  simp only at hsck hlat
  subst hsck hlat
  unfold State.send
  generalize Config.latchVariant = v
  cases v <;> exact ⟨rfl, rfl, rfl, rfl, rfl, rfl⟩

/-- A transmission answers a next state exactly from SEQ idle and the boot requirement, and it is the send. -/
theorem transmit_next_iff (T : TWord) (s t : State) :
    transmit T s = .next t ↔ s.seq = .idle ∧ s.booted = true ∧ t = s.send T := by
  unfold transmit
  split
  · split
    · rename_i hs hb
      exact ⟨fun h => ⟨hs, hb, (Host.Outcome.next.inj h).symm⟩, fun h => h.2.2 ▸ rfl⟩
    · rename_i hb
      exact ⟨fun h => (nomatch h), fun h => absurd h.2.1 hb⟩
  · rename_i hs
    exact ⟨fun h => (nomatch h), fun h => absurd h.1 hs⟩

/-- A transmission never faults. -/
theorem transmit_ne_fault (T : TWord) (s : State) (f : Fault) : transmit T s ≠ .fault f := by
  unfold transmit
  split
  · split <;> simp
  · simp

end Sys2Proof.Machine
end

