-- ==== Sys2Proof/Laws/Operations.lean ====
section
/-! SUPPORT. What exec and a sequence of instructions answer, in terms of the sends they make. -/

namespace Sys2Proof.Machine

/-- A well-formed instruction is executed by transmitting its word (R149). -/
theorem exec_wellFormed {i : Instr} (h : i.wellFormed = true) (s : State) : exec i s = transmit (encode i) s := by
  cases i with
  | setAddress addr =>
    have ha : addr ≤ Config.maxAddr := of_decide_eq_true h
    simp only [exec, execSetAddress, issue, transmit]
    split
    · rw [if_neg (by omega)]
    · rfl
  | _ => rfl

/-- Well-formed instructions in sequence, from SEQ idle and the boot requirement, are the sends of their words. -/
theorem execAll_wellFormed {is : List Instr} (h : ∀ i ∈ is, i.wellFormed = true) (s : State) (hs : s.seq = .idle)
    (hb : s.booted = true) : execAll is s = .next (s.sendAll (is.map encode)) := by
  induction is generalizing s with
  | nil => rfl
  | cons i is ih =>
    have hi := (transmit_next_iff (encode i) s _).mpr ⟨hs, hb, rfl⟩
    rw [execAll, exec_wellFormed (h i (by simp)) s, hi]
    exact ih (fun j hj => h j (by simp [hj])) _ (by simpa using hs) (by simp)

/-- The characters of a text are well-formed instructions. -/
theorem charInstrs_wellFormed (text : List Nat) : ∀ i ∈ charInstrs text, i.wellFormed = true := by
  intro i hi
  obtain ⟨c, -, rfl⟩ := List.mem_map.mp hi
  rfl

section SendAll
variable (s : State) (Ts : List TWord)

@[simp] theorem State.sendAll_seq : (s.sendAll Ts).seq = s.seq := by simp [State.sendAll_eq]
@[simp] theorem State.sendAll_job : (s.sendAll Ts).job = s.job := by simp [State.sendAll_eq]
@[simp] theorem State.sendAll_port : (s.sendAll Ts).port = s.port := by simp [State.sendAll_eq]
@[simp] theorem State.sendAll_accepted : (s.sendAll Ts).accepted = s.accepted := by simp [State.sendAll_eq]
@[simp] theorem State.sendAll_rejected : (s.sendAll Ts).rejected = s.rejected := by simp [State.sendAll_eq]
@[simp] theorem State.sendAll_faults : (s.sendAll Ts).faults = s.faults := by simp [State.sendAll_eq]
@[simp] theorem State.sendAll_trace :
    (s.sendAll Ts).trace = s.trace ++ Ts.flatMap (sendEvents Config.latchVariant Config.timing) := by
  simp [State.sendAll_eq, jobOf_events]
@[simp] theorem State.sendAll_words : (s.sendAll Ts).words = s.words ++ Ts := by
  induction Ts generalizing s with
  | nil => simp [State.sendAll]
  | cons T Ts ih => simp [State.sendAll, ih]
@[simp] theorem State.sendAll_delivered : (s.sendAll Ts).delivered = s.delivered ++ Ts := by
  induction Ts generalizing s with
  | nil => simp [State.sendAll]
  | cons T Ts ih => simp [State.sendAll, ih]
@[simp] theorem State.sendAll_display : (s.sendAll Ts).display = Ts.foldl Display.receive s.display := by
  induction Ts generalizing s with
  | nil => rfl
  | cons T Ts ih => simp [State.sendAll, ih]

/-- Several sends keep SCK and LAT low. -/
theorem State.sendAll_booted (h : s.booted = true) : (s.sendAll Ts).booted = true := by
  induction Ts generalizing s with
  | nil => exact h
  | cons T Ts ih => exact ih _ (by simp)

/-- After several sends the wires hold the last word (R23, R184). -/
theorem State.sendAll_wires (h : s.booted = true) {T : TWord} (hT : Ts.getLast? = some T) :
    WiresHold T (s.sendAll Ts) := by
  induction Ts generalizing s with
  | nil => simp at hT
  | cons U Ts ih =>
    cases Ts with
    | nil =>
      obtain rfl : U = T := by simpa using hT
      exact s.send_wires U h
    | cons V Ts => exact ih (s.send U) (by simp) (by simpa using hT)

end SendAll

end Sys2Proof.Machine
end

