-- ==== Sys2Proof/Laws/PerInstr.lean ====
section
/-! SUPPORT. The statement made for each instruction: a well-formed instruction's word selects its own row of the
opcode table (`30_encoding.md` R84). -/

namespace Sys2Proof.Laws.RowMatch

/-- The word of a well-formed instruction selects the instruction's row. -/
def Statement (i : Instr) : Prop := i.wellFormed = true → i.row.selects (encode i).bits = true

theorem functionSet : Statement .functionSet := fun _ => by decide

theorem clear : Statement .clear := fun _ => by decide

theorem home : Statement .home := fun _ => by decide

theorem powerControl (displayOn cursorOn blinkOn : Bool) :
    Statement (.powerControl displayOn cursorOn blinkOn) := fun _ => by
  cases displayOn <;> cases cursorOn <;> cases blinkOn <;> decide

theorem shift (target : ShiftTarget) (direction : Direction) : Statement (.shift target direction) := fun _ => by
  cases target <;> cases direction <;> decide

/-- The word of a SET_ADDRESS has bit 8 clear and bit 7 set, whatever the address. -/
theorem setAddress (addr : Nat) : Statement (.setAddress addr) := fun _ => by
  simp only [Instr.row, OpcodeRow.selects, beq_iff_eq]
  refine BitVec.eq_of_getLsbD_eq fun i hi => ?_
  rw [BitVec.getLsbD_and, TWord.bits_getLsbD]
  interval_cases i <;> simp [encode]

/-- The word of a WRITE_CHAR has bit 8 set. -/
theorem writeChar (ch : Byte) : Statement (.writeChar ch) := fun _ => by
  simp only [Instr.row, OpcodeRow.selects, beq_iff_eq]
  refine BitVec.eq_of_getLsbD_eq fun i hi => ?_
  rw [BitVec.getLsbD_and, TWord.bits_getLsbD]
  interval_cases i <;> simp [encode]

end Sys2Proof.Laws.RowMatch
end

