-- ==== Sys2Proof/Laws/Step.lean ====
section
/-! SUPPORT. What a step is in each state of SEQ, that a job does not see SEQ, and how a step moves through a job. -/

namespace Sys2Proof.Machine

/-- From SEQ idle a step takes the next call. -/
theorem step_idle {s : State} (h : s.seq = .idle) : step s = idleStep s := by
  simp [step, h]

/-- At SEQ = n a step performs event `n`. -/
theorem step_pos {s : State} {n : Nat} (h : s.seq = .pos n) : step s = stepEvent n s := by
  simp [step, h]

/-- Event `n` of a job is performed and SEQ advances. -/
theorem stepEvent_of_lt {s : State} {n : Nat} (h : n < s.job.length) :
    stepEvent n s = .next ((s.performAction s.job[n]).advance n) := by
  simp [stepEvent, h]

/-- An element of a job is performed alike whatever SEQ and the job are. -/
theorem State.performAction_withSeq (s : State) (a : JobItem) (q : SeqPos) (j : List JobItem) :
    ({ s with seq := q, job := j } : State).performAction a = { s.performAction a with seq := q, job := j } := by
  obtain ⟨e, n⟩ := a
  rcases e with ⟨l, v⟩ | d
  · cases n <;> cases l <;> rfl
  · cases n <;> rfl

/-- A job is performed alike whatever SEQ and the job field are. -/
theorem State.performActions_withSeq (s : State) (as : List JobItem) (q : SeqPos) (j : List JobItem) :
    ({ s with seq := q, job := j } : State).performActions as = { s.performActions as with seq := q, job := j } := by
  induction as generalizing s with
  | nil => rfl
  | cons a as ih => rw [State.performActions, State.performAction_withSeq, ih, State.performActions]

/-- Before the last event, a step leaves the job as it is and the end of the operation as it was. -/
theorem State.advance_of_lt {s : State} {n : Nat} (h : n + 1 < s.job.length) :
    ((s.performAction s.job[n]).advance n).seq = .pos (n + 1) ∧
      ((s.performAction s.job[n]).advance n).job = s.job ∧
      ((s.performAction s.job[n]).advance n).finish (n + 1) = s.finish n := by
  have hd : s.job.drop n = s.job[n] :: s.job.drop (n + 1) := List.drop_eq_getElem_cons (by omega)
  have hu : (s.performAction s.job[n]).job = s.job := by simp
  unfold State.advance State.finish
  rw [hd, State.performActions, hu, if_pos h]
  generalize s.performAction s.job[n] = u at hu ⊢
  refine ⟨rfl, rfl, ?_⟩
  show ({ ({ u with seq := .pos (n + 1), job := s.job } : State).performActions (s.job.drop (n + 1)) with
    seq := .idle, job := [] } : State) = _
  rw [State.performActions_withSeq]

/-- The last event ends the operation. -/
theorem State.advance_of_last {s : State} {n : Nat} (h : n + 1 = s.job.length) :
    (s.performAction (s.job[n]'(by omega))).advance n = s.finish n := by
  have hd : s.job.drop n = s.job[n]'(by omega) :: s.job.drop (n + 1) := List.drop_eq_getElem_cons (by omega)
  rw [State.finish, hd, List.drop_of_length_le (by omega)]
  simp only [State.performActions, State.advance, State.performAction_job]
  rw [if_neg (by omega)]

/-- A started job, run to its end, is the job performed from the state before the start. -/
theorem State.startJob_finish {s : State} {job : List JobItem} (hs : s.seq = .idle) (hj : s.job = [])
    (h : job ≠ []) :
    (s.startJob job).seq = .pos 0 ∧ (s.startJob job).job = job ∧
      (s.startJob job).finish 0 = s.performActions job := by
  rw [State.startJob, if_neg h]
  refine ⟨rfl, rfl, ?_⟩
  show ({ ({ s with seq := .pos 0, job := job } : State).performActions job with seq := .idle, job := [] } : State) = _
  have hself := State.performActions_withSeq s job s.seq s.job
  rw [State.performActions_withSeq]
  rw [hs, hj] at hself
  rw [← hself, ← hs, ← hj]

/-- From SEQ idle, to be sequenced is to be settled. -/
theorem sequenced_idle {s : State} (h : s.seq = .idle) : Sequenced s ↔ Settled s := by
  simp [Sequenced, h]

/-- During an operation, to be sequenced is to have an event left and to settle at the end. -/
theorem sequenced_pos {s : State} {n : Nat} (h : s.seq = .pos n) :
    Sequenced s ↔ n < s.job.length ∧ Settled (s.finish n) := by
  simp [Sequenced, h]

end Sys2Proof.Machine
end

