-- ==== Sys2Proof/Tests/Slice0.lean ====
section
/-! SUPPORT. Tests of the model against words, events and outcomes of `spec/95_test_vectors.md` (a vector is named
V<n>) and of the spec's tables, and for each obligation with hypotheses a witness that meets them. LATCH_VARIANT has no
value in Lean, so a test of a whole send runs the tail of either variant. -/

namespace Sys2Proof.Tests

open Sys2Proof Sys2Proof.Machine

/-! Helpers. -/

/-- The clean entry of R232: the state after reset with SCK and LAT low. -/
def s0 : State := State.reset.boot

/-- The state just before the tail of a send. -/
def beforeTail (T : TWord) (s : State) : State :=
  ((((s.recordWord T).setLine .rs (Level.ofBool T.rs)).shiftByte T.byte .msbFirst).latchPulse).deliver T

/-- `o` is a next state that meets `p`. -/
def nextWith (p : State → Bool) : Host.Outcome State Fault Refusal → Bool
  | .next t => p t
  | .fault _ => false
  | .refused _ => false

/-- A send from the clean entry meets `p` when it does so with the tail of either variant. -/
theorem transmit_nextWith (p : State → Bool) (T : TWord) (s : State) (h : s.seq = .idle) (hb : s.booted = true)
    (h1 : p ((beforeTail T s).sendTail .single) = true) (h2 : p ((beforeTail T s).sendTail .double) = true) :
    nextWith p (transmit T s) = true := by
  have e : transmit T s = .next ((beforeTail T s).sendTail Config.latchVariant) := by
    rw [transmit, if_pos h, if_pos hb]; rfl
  rw [e]
  generalize Config.latchVariant = v
  cases v
  · exact h1
  · exact h2

/-- The same of a well-formed instruction. -/
theorem exec_nextWith (p : State → Bool) (i : Instr) (s : State) (hw : i.wellFormed = true) (h : s.seq = .idle)
    (hb : s.booted = true) (h1 : p ((beforeTail (encode i) s).sendTail .single) = true)
    (h2 : p ((beforeTail (encode i) s).sendTail .double) = true) : nextWith p (exec i s) = true := by
  rw [exec_wellFormed hw]
  exact transmit_nextWith p (encode i) s h hb h1 h2

/-- `s0` with a display that has received `progress` of initialize. -/
def atProgress (progress : InitProgress) : State :=
  { s0 with display := { Display.unknown with progress := progress } }

/-- `s0` with a display that initialize has configured and whose address register is `a`. -/
def atAddress (a : DdramAddr) : State :=
  { s0 with display := { Display.unknown with progress := .done, ac := .is a } }

/-- `s0` with one call waiting. -/
def withCall (op : Operation) (pace : Pace) : State := { s0 with port := [⟨op, pace⟩] }

/-- `s0` with an operation of two events in progress, at event `n`. -/
def inProgress (n : Nat) : State :=
  { s0 with seq := .pos n, job := [plainAction (.write .lat .H), plainAction (.write .lat .L)] }

/-! WellFormed: the one ill-formed shape is an address of more than 7 bits (R146). -/

theorem test_wellFormed_refuses_0x80 : (Instr.setAddress 0x80).wellFormed = false := by decide
theorem test_wellFormed_takes_0x7F : (Instr.setAddress 0x7F).wellFormed = true := by decide
theorem test_wellFormed_takes_the_others :
    [Instr.functionSet, .clear, .home, .powerControl true true true, .shift .display .right, .writeChar 0xFF].all
      Instr.wellFormed = true := by decide

/-! Decode: words written out from the field table of R82 (V30 to V36). -/

theorem test_decode_functionSet : decode 0b000111000 = .instr .functionSet := by decide
theorem test_decode_clear : decode 0b000000001 = .instr .clear := by decide
theorem test_decode_home : decode 0b000000010 = .instr .home := by decide
theorem test_decode_powerControl :
    decode 0b000001100 = .instr (.powerControl true false false) ∧
    decode 0b000001010 = .instr (.powerControl false true false) ∧
    decode 0b000001001 = .instr (.powerControl false false true) := by decide
theorem test_decode_shift :
    decode 0b000010000 = .instr (.shift .cursor .left) ∧ decode 0b000010100 = .instr (.shift .cursor .right) ∧
    decode 0b000011000 = .instr (.shift .display .left) ∧ decode 0b000011100 = .instr (.shift .display .right) := by
  decide
theorem test_decode_setAddress :
    decode 0b010000000 = .instr (.setAddress 0x00) ∧ decode 0b010001111 = .instr (.setAddress 0x0F) ∧
    decode 0b011000000 = .instr (.setAddress 0x40) ∧ decode 0b011111111 = .instr (.setAddress 0x7F) := by decide
theorem test_decode_writeChar :
    decode 0b100000000 = .instr (.writeChar 0x00) ∧ decode 0b100111000 = .instr (.writeChar 0x38) ∧
    decode 0b111111111 = .instr (.writeChar 0xFF) := by decide

/-- The reserved words that the vectors list, each refused by name. -/
theorem test_decode_reserved :
    [0x00, 0x03, 0x04, 0x07, 0x11, 0x1F, 0x20, 0x37, 0x39, 0x3C, 0x40, 0x7F].all
      (fun b : Byte => decodeWord ⟨false, b⟩ == .reserved b) = true := by decide

set_option maxRecDepth 20000 in
/-- 113 words are reserved (R87). -/
theorem test_reserved_count :
    (((List.range 256).map (BitVec.ofNat 8)).filter
      (fun b : Byte => decodeWord ⟨false, b⟩ == .reserved b)).length = 113 := by decide

theorem test_decodeTableWord :
    decodeTableWord 16 0x0C5 = some (.setAddress 0x45) ∧ decodeTableWord 9 0x141 = some (.writeChar 0x41) ∧
    decodeTableWord 16 0x003 = none ∧ decodeTableWord 16 0x238 = none := by decide

/-! Encode: the bytes of V30 to V36. -/

theorem test_encode :
    encode .functionSet = ⟨false, 0x38⟩ ∧ encode .clear = ⟨false, 0x01⟩ ∧ encode .home = ⟨false, 0x02⟩ ∧
    encode (.powerControl true false true) = ⟨false, 0x0D⟩ ∧ encode (.shift .display .left) = ⟨false, 0x18⟩ ∧
    encode (.shift .cursor .right) = ⟨false, 0x14⟩ ∧ encode (.setAddress 0x4F) = ⟨false, 0xCF⟩ ∧
    encode (.writeChar 0x41) = ⟨true, 0x41⟩ := by decide

/-! The micro-operations. -/

/-- V20a, V20e, V20g: the SER levels of a byte in both orders. -/
theorem test_ser_levels :
    (shiftOutEvents Config.timing 0x38 .msbFirst).filter (Event.writes .ser) =
      [.write .ser .L, .write .ser .L, .write .ser .H, .write .ser .H, .write .ser .H, .write .ser .L,
        .write .ser .L, .write .ser .L] ∧
    (shiftOutEvents Config.timing 0x01 .msbFirst).filter (Event.writes .ser) =
      [.write .ser .L, .write .ser .L, .write .ser .L, .write .ser .L, .write .ser .L, .write .ser .L,
        .write .ser .L, .write .ser .H] ∧
    (shiftOutEvents Config.timing 0x38 .lsbFirst).filter (Event.writes .ser) =
      [.write .ser .L, .write .ser .L, .write .ser .L, .write .ser .H, .write .ser .H, .write .ser .H,
        .write .ser .L, .write .ser .L] := by decide

/-- V20a and V20g: what the shift register holds after a byte, from unknown contents. -/
theorem test_shift_stage :
    (s0.shiftByte 0x38 .msbFirst).srShift = SrBits.ofByte 0x38 ∧
    (s0.shiftByte 0x38 .lsbFirst).srShift = SrBits.ofByte 0x1C := by decide

/-- A bit count of 7 is refused, 8 is not (R56). -/
theorem test_bit_count :
    shiftOut 0x38 7 .msbFirst s0 = .refused (.bitCount 7) ∧
    nextWith (fun t => t.sck == .is .L) (shiftOut 0x38 8 .msbFirst s0) = true := ⟨rfl, by decide⟩

/-- V21: one pulse commits the shift stage and ends low. -/
theorem test_latch_pulse :
    let t := { s0 with srShift := SrBits.ofByte 0x38, srOut := SrBits.ofByte 0x01 }.latchPulse
    t.srOut = SrBits.ofByte 0x38 ∧ t.lat = .is .L ∧
    t.trace = [.write .lat .H, .wait (.us 1), .write .lat .L, .wait (.us 1)] := by decide

/-- V22 and V23: events 36 to 42 and the tail of `send(false, 0x02)` in either variant. -/
theorem test_send_events :
    ((sendEvents .single Config.timing ⟨false, 0x02⟩).drop 37).take 6 =
      [.write .ser .H, .wait (.us 1), .write .sck .H, .wait (.us 1), .write .sck .L, .wait (.us 1)] ∧
    (sendEvents .single Config.timing ⟨false, 0x02⟩).drop 49 =
      [.write .lat .H, .wait (.us 1), .write .lat .L, .wait (.us 1), .wait (.ms 1)] ∧
    (sendEvents .double Config.timing ⟨false, 0x02⟩).drop 53 =
      [.write .lat .H, .wait (.us 1), .write .lat .L, .wait (.us 1)] := by decide

/-- V25: the counts and the requested times. -/
theorem test_send_counts :
    (sendEvents .single Config.timing ⟨true, 0x41⟩).length = 54 ∧
    requestedUs (sendEvents .single Config.timing ⟨true, 0x41⟩) = 1026 ∧
    (sendEvents .double Config.timing ⟨true, 0x41⟩).length = 57 ∧
    requestedUs (sendEvents .double Config.timing ⟨true, 0x41⟩) = 28 := by decide

/-- V22: the transition projection drops the five unchanged writes of SER, and the writes of SCK and LAT stay. -/
theorem test_transition_projection :
    (transitionProjection s0 (sendEvents .single Config.timing ⟨false, 0x02⟩)).length = 27 - 5 := by decide

/-- V72: a clock raised from an unknown level leaves the shift stage unknown, and bit 7 stays unknown after the byte. -/
theorem test_unknown_clock :
    (State.reset.perform (.write .sck .H)).srShift = SrBits.unknown ∧
    (State.reset.shiftByte 0x38 .msbFirst).srShift.qh = .unknown := by decide

/-- V73 and V74: what a display sampling at the falling edge latches for one word. -/
theorem test_latched_falling :
    latchedSamples .falling s0 (sendEvents .single Config.timing ⟨true, 0x41⟩) =
      [⟨.is .H, SrBits.ofByte 0x41⟩] ∧
    latchedSamples .falling s0 (sendEvents .double Config.timing ⟨true, 0x41⟩) =
      [⟨.is .H, SrBits.ofByte 0x41⟩, ⟨.is .H, SrBits.ofByte 0x41⟩] := by decide

/-! The seven instructions, each in one step from the clean entry. -/

theorem test_exec_functionSet :
    nextWith (fun t => t.words == [⟨false, 0x38⟩] && t.display.displayLines == .is .two && t.ser == .is .L)
      (exec .functionSet s0) = true := by
  apply exec_nextWith <;> decide

theorem test_exec_clear :
    nextWith (fun t => t.words == [⟨false, 0x01⟩] && t.ser == .is .H && t.rs == .is .L && t.display.ac == .unknown)
      (exec .clear (atAddress 0x05)) = true := by
  apply exec_nextWith <;> decide

theorem test_exec_home :
    nextWith (fun t => t.words == [⟨false, 0x02⟩] && t.srOut == SrBits.ofByte 0x02) (exec .home s0) = true := by
  apply exec_nextWith <;> decide

/-- V33e: display on, cursor and blink off. -/
theorem test_exec_powerControl :
    nextWith (fun t => t.words == [⟨false, 0x0C⟩] && t.display.displayOn == .is true &&
      t.display.cursorOn == .is false && t.display.blinkOn == .is false)
      (exec (.powerControl true false false) (atProgress .done)) = true := by
  apply exec_nextWith <;> decide

theorem test_exec_shift :
    nextWith (fun t => t.words == [⟨false, 0x18⟩] && t.display.shiftMoves == [⟨.display, .left⟩])
      (exec (.shift .display .left) (atProgress .done)) = true := by
  apply exec_nextWith <;> decide

theorem test_exec_setAddress :
    nextWith (fun t => t.words == [⟨false, 0xC5⟩] && t.display.ac == .is 0x45) (exec (.setAddress 0x45) (atProgress .done)) = true := by
  apply exec_nextWith <;> decide

/-- U11: an address set before initialize leaves the address register unknown; the word is sent all the same. -/
theorem test_exec_setAddress_before_initialize :
    nextWith (fun t => t.words == [⟨false, 0xC5⟩] && t.display == Display.unknown) (exec (.setAddress 0x45) s0) = true := by
  apply exec_nextWith <;> decide

/-- P1, the display's side of initialize: its four words leave 8-bit bus, two lines, 5 by 8 font, display on, cursor
and blink off. -/
theorem test_initialize_configures :
    Operation.initializeDisplay.words.foldl Display.receive Display.unknown =
      { Display.unknown with
        progress := .done, busWidth := .is .eightBit, displayLines := .is .two, font := .is .dots5x8,
        displayOn := .is true, cursorOn := .is false, blinkOn := .is false } := by decide

/-- V56: 0x80 is rejected, with nothing sent. -/
theorem test_exec_setAddress_rejected :
    exec (.setAddress 0x80) s0 = .next { s0 with faults := [.addressOutOfRange 0x80] } := rfl

/-- V75, one word of it: a character stored at 0x43. -/
theorem test_exec_writeChar :
    nextWith (fun t => t.words == [⟨true, 0x58⟩] && t.rs == .is .H && t.display.ddram == [(0x43, 0x58)] &&
      t.display.ac == .is 0x44) (exec (.writeChar 0x58) (atAddress 0x43)) = true := by
  apply exec_nextWith <;> decide

/-- The address after the last column of row 0 is not in the source. -/
theorem test_exec_writeChar_row_end :
    nextWith (fun t => t.display.ddram == [(0x0F, 0x58)] && t.display.ac == .unknown)
      (exec (.writeChar 0x58) (atAddress 0x0F)) = true := by
  apply exec_nextWith <;> decide

/-- Before SCK and LAT are low, a send is refused by name (R232). -/
theorem test_exec_before_boot : exec .clear State.reset = .refused .bootRequirement := rfl

/-! Operations and the step. -/

/-- V42, V46: the pair is (column, row). -/
theorem test_set_cursor_words :
    (Operation.setCursor 7 1).words = [⟨false, 0xC7⟩] ∧ (Operation.setCursor 1 0).words = [⟨false, 0x81⟩] := by decide

/-- V43, V45: a position outside the grid is rejected, with both coordinates. -/
theorem test_set_cursor_rejected :
    nextWith (fun t => t.faults == [.cursorOutOfRange 16 0] && t.words == [] && t.trace == [])
      (callOperation (.setCursor 16 0) s0) = true ∧
    (Operation.setCursor 255 255).fault = some (.cursorOutOfRange 255 255) := by decide

/-- V50, V58: the words of initialize and of print. -/
theorem test_operation_words :
    Operation.initializeDisplay.words = [⟨false, 0x38⟩, ⟨false, 0x01⟩, ⟨false, 0x02⟩, ⟨false, 0x0C⟩] ∧
    (Operation.print [0x41, 0x42]).words = [⟨true, 0x41⟩, ⟨true, 0x42⟩] ∧ (Operation.print []).words = [] := by decide

/-- R167: a character of more than a byte is refused by name. -/
theorem test_print_wide : callOperation (.print [0x41, 0x100]) s0 = .refused (.wideCharacter 0x100) := rfl

/-- A word placed in the reset state runs in the very next step. -/
theorem test_step_runs_placed_word :
    nextWith (fun t => t.words == [⟨false, 0x0F⟩] && t.seq == .idle && t.port == [])
      (step (State.reset.withFetchWord 16 0x00F)) = true := by
  refine transmit_nextWith _ _ { s0 with accepted := [.send false 0x0F] } rfl rfl ?_ ?_ <;> decide

/-- One event of an operation in progress: SEQ moves by one. -/
theorem test_step_event :
    nextWith (fun t => t.seq == .pos 1 && t.lat == .is .H && t.trace == [.write .lat .H]) (step (inProgress 0)) = true ∧
    nextWith (fun t => t.seq == .idle && t.job == []) (step (inProgress 1)) = true := by decide

/-! Witnesses: the hypotheses of each obligation that has some are met, at the boundary of each clause. -/

theorem witness_DecodeOfEncode :
    (Instr.setAddress 0).wellFormed = true ∧ (Instr.setAddress 0x7F).wellFormed = true ∧
    (Instr.writeChar 0xFF).wellFormed = true := by decide

theorem witness_EncodeOfDecode :
    decode 0x038 = .instr .functionSet ∧ decode 0x0FF = .instr (.setAddress 0x7F) ∧
    decode 0x1FF = .instr (.writeChar 0xFF) := by decide

theorem witness_EncodedBytes : 0 ≤ 0x7F ∧ (encode (.setAddress 0)).byte.toNat = 0x80 ∧
    0x7F ≤ 0x7F ∧ (encode (.setAddress 0x7F)).byte.toNat = 0xFF := by decide

theorem witness_RowSelectsItsWords :
    ∀ r ∈ [(Instr.functionSet).row, Instr.clear.row, Instr.home.row, (Instr.powerControl true true true).row,
      (Instr.shift .display .right).row, (Instr.setAddress 0x7F).row, (Instr.writeChar 0xFF).row],
      r ∈ opcodeTable := by decide

theorem witness_ReservedWords :
    [0x00, 0x03, 0x07, 0x11, 0x1F, 0x20, 0x37, 0x39, 0x7F].all
      (fun b : Byte => decodeWord ⟨false, b⟩ == .reserved b) = true ∧
    [0x01, 0x02, 0x08, 0x0F, 0x10, 0x14, 0x1C, 0x38, 0x80].all
      (fun b : Byte => decodeWord ⟨false, b⟩ != .reserved b) = true := by decide

theorem witness_OtherBitCountsRefused : (7 : Nat) ≠ 8 ∧ (9 : Nat) ≠ 8 ∧ (0 : Nat) ≠ 8 := by decide

theorem witness_ShiftStageMovesOnRisingClock :
    (Event.write .sck .H = .write .sck .H → s0.sck ≠ .unknown) ∧ s0.sck = .is .L ∧
    (Event.write .sck .H = .write .sck .H → { s0 with sck := .is .H }.sck ≠ .unknown) ∧
    (Event.write .ser .H = .write .sck .H → State.reset.sck ≠ .unknown) := by decide

theorem witness_OutputStageCommitsOnRisingLatch :
    (Event.write .lat .H = .write .lat .H → s0.lat ≠ .unknown) ∧ s0.lat = .is .L ∧
    (Event.write .lat .H = .write .lat .H → { s0 with lat := .is .H }.lat ≠ .unknown) ∧
    (Event.write .lat .L = .write .lat .H → State.reset.lat ≠ .unknown) := by decide

theorem witness_UnknownLevelsSpread :
    (s0.ser = .unknown ∧ s0.sck = .is .L) ∧ State.reset.sck = .unknown ∧ State.reset.lat = .unknown := by decide

theorem witness_ShiftOutFlushesShiftStage : s0.sck = .is .L := rfl

theorem witness_LatchPulseCommits : s0.lat = .is .L := rfl

theorem witness_SendEventCounts : (0 : Nat) < 8 ∧ (7 : Nat) < 8 := by decide

/-- The clean entry meets the hypotheses of every send: SendTransmitsTheWord,
SendLeavesTheWires, InstructionsSendTheirBytes, FunctionSetSends, ClearSends, HomeSends,
PowerControlSends, ShiftSends, InitializeSendsFourWords, InitializeConfiguresTheDisplay. -/
theorem witness_CleanEntry : s0.seq = .idle ∧ s0.booted = true := by decide

/-- Each stage of initialize that a clause of the instructions' statements speaks of. -/
theorem witness_Progress :
    (∀ p ∈ [InitProgress.notStarted, .functionSet, .clear, .home, .done], (atProgress p).seq = .idle ∧
      (atProgress p).booted = true ∧ (atProgress p).display.progress = p) := by decide

theorem witness_IssueSendsTheEncodedWord :
    (Instr.setAddress 0x7F).wellFormed = true ∧ s0.seq = .idle ∧ s0.booted = true := by decide

theorem witness_SetAddressSends :
    (0 ≤ 0x7F ∧ s0.seq = .idle ∧ s0.booted = true) ∧ (0x7F ≤ 0x7F ∧ s0.seq = .idle ∧ s0.booted = true) := by decide

/-- Cells at both ends of both rows, the addresses next to them, and an unknown address register. -/
theorem witness_WriteCharSends :
    (∀ a ∈ [(0x00 : DdramAddr), 0x0F, 0x40, 0x4F], (atAddress a).seq = .idle ∧ (atAddress a).booted = true ∧
      (atAddress a).display.progress = .done ∧ (atAddress a).display.ac = .is a ∧
      (a.toNat < 0x10 ∨ (0x40 ≤ a.toNat ∧ a.toNat < 0x50))) ∧
    (∀ a ∈ [(0x10 : DdramAddr), 0x3F, 0x50, 0x7F], (atAddress a).seq = .idle ∧ (atAddress a).booted = true ∧
      (atAddress a).display.progress = .done ∧ (atAddress a).display.ac = .is a ∧
      ¬ (a.toNat < 0x10 ∨ (0x40 ≤ a.toNat ∧ a.toNat < 0x50))) ∧
    (atProgress .done).display.ac = .unknown ∧ s0.display.progress ≠ .done := by decide

theorem witness_AddressOutOfRangeRejected : 0x80 > 0x7F ∧ s0.seq = .idle ∧ State.reset.seq = .idle := by decide

theorem witness_CursorOutOfRangeRejected :
    ((16 > 15 ∨ 0 > 1) ∧ s0.seq = .idle) ∧ ((0 > 15 ∨ 2 > 1) ∧ s0.seq = .idle) := by decide

theorem witness_OnlyTwoOperationsReject :
    (16 > 15 ∨ 0 > 1) ∧ (15 > 15 ∨ 2 > 1) ∧ 0x80 > 0x7F ∧ (Operation.setCursor 15 1).fault = none ∧
    (Operation.setAddress 0x7F).fault = none := by decide

theorem witness_RunGoesOnAfterRejection :
    (Operation.setAddress 0x80).fault = some (.addressOutOfRange 0x80) ∧
    (Operation.setCursor 0 2).fault = some (.cursorOutOfRange 0 2) ∧ s0.seq = .idle := by decide

theorem witness_NothingStartsInProgress : (inProgress 0).seq = .pos 0 ∧ (inProgress 1).seq = .pos 1 := by decide

theorem witness_UnbootedSendRefused :
    Instr.clear.wellFormed = true ∧
    (State.reset.seq = .idle ∧ State.reset.sck ≠ .is .L) ∧
    ({ s0 with sck := .is .H }.seq = .idle ∧ { s0 with sck := .is .H }.sck ≠ .is .L) ∧
    ({ s0 with lat := .is .H }.seq = .idle ∧ { s0 with lat := .is .H }.lat ≠ .is .L) := by decide

/-- Each kind of operation of OneWordOperations meets its part of the hypothesis. -/
theorem witness_OneWordOperations :
    (s0.seq = .idle ∧ s0.booted = true) ∧
    (Operation.powerControl true false false = .powerControl true false false ∧
      0x0C = 0x08 + 4 * true.toNat + 2 * false.toNat + 1 * false.toNat) ∧
    (Operation.shift .display .right = .shift .display .right ∧
      0x1C = 0x10 + 8 * (if ShiftTarget.display = .display then 1 else 0) +
        4 * (if Direction.right = .right then 1 else 0)) ∧
    (0x7F ≤ 0x7F ∧ Operation.setAddress 0x7F = .setAddress 0x7F ∧ 0xFF = (0x80 ||| 0x7F)) := by decide

theorem witness_SetCursorSends :
    (s0.seq = .idle ∧ s0.booted = true) ∧ (0 ≤ 15 ∧ 0 ≤ 1) ∧ (15 ≤ 15 ∧ 1 ≤ 1) ∧ ¬ (16 ≤ 15 ∧ 1 ≤ 1) ∧
    ¬ (15 ≤ 15 ∧ 2 ≤ 1) := by decide

theorem witness_SetCursorSetsTheAddress :
    (∀ p ∈ [InitProgress.done, .notStarted], (atProgress p).seq = .idle ∧ (atProgress p).booted = true ∧
      (atProgress p).display.progress = p) ∧ (0 ≤ 15 ∧ 0 ≤ 1) ∧ (15 ≤ 15 ∧ 1 ≤ 1) := by decide

theorem witness_PrintSendsEachCharacter :
    (s0.seq = .idle ∧ s0.booted = true) ∧ (∀ c ∈ ([] : List Nat), c ≤ 255) ∧ (∀ c ∈ [0, 255], c ≤ 255) ∧
    (∃ c ∈ [0x41, 256], 255 < c) := by decide

theorem witness_ReservedWordTransmitted :
    decodeWord ⟨false, 0x06⟩ = .reserved 0x06 ∧ decodeWord ⟨false, 0x00⟩ = .reserved 0x00 ∧
    decodeWord ⟨false, 0x7F⟩ = .reserved 0x7F ∧ s0.seq = .idle ∧ s0.booted = true := by decide

theorem witness_TranslationIsBijective :
    ((0 ≤ 15 ∧ 0 ≤ 1) ∧ (15 ≤ 15 ∧ 1 ≤ 1)) ∧ ((16 > 15 ∨ 1 > 1) ∧ (15 > 15 ∨ 2 > 1)) ∧
    (∀ a ∈ [(0x0F : DdramAddr), 0x40, 0x4F], a.toNat < 0x10 ∨ (0x40 ≤ a.toNat ∧ a.toNat < 0x50)) := by decide

/-- A full row, and a text that ends in the last column but one. -/
theorem witness_PrintLandsWithinTheRow :
    ((atProgress .done).seq = .idle ∧ (atProgress .done).booted = true ∧ (atProgress .done).display.progress = .done) ∧
    (1 ≤ 1 ∧ 0 ≤ 15 ∧ 0 + (List.replicate 16 0x41).length ≤ 16 ∧ ∀ ch ∈ List.replicate 16 0x41, ch ≤ 255) ∧
    (0 ≤ 1 ∧ 13 ≤ 15 ∧ 13 + [0x41, 0xFF].length ≤ 15 ∧ ∀ ch ∈ [0x41, 0xFF], ch ≤ 255) := by decide

theorem witness_RunsCompose :
    s0.seq = .idle ∧ ∃ t, runOperations [.clear] s0 = .next t :=
  ⟨rfl, _, rfl⟩

theorem witness_InstructionsAreStateless :
    ∃ t t', exec .clear s0 = .next t ∧ exec .clear (atAddress 0x10) = .next t' :=
  ⟨_, _, rfl, rfl⟩

theorem witness_StepRunsTheDecodedInstruction :
    (withCall (.send true 0x41) .whole).seq = .idle ∧
    (withCall (.send true 0x41) .whole).port = ⟨.send true 0x41, .whole⟩ :: [] ∧
    decodeWord ⟨true, 0x41⟩ = .instr (.writeChar 0x41) := by decide

theorem witness_PlacedWordRunsNext :
    decodeTableWord 16 0x038 = some .functionSet ∧ decodeTableWord 9 0x1FF = some (.writeChar 0xFF) := by decide

theorem witness_IdleBlockWaits : State.reset.seq = .idle ∧ State.reset.port = [] := by decide

theorem witness_CallsTakenInOrder :
    ((withCall .home .whole).seq = .idle ∧ (withCall .home .whole).port = ⟨.home, .whole⟩ :: []) ∧
    ((withCall .home .eventwise).seq = .idle ∧ (withCall .home .eventwise).port = ⟨.home, .eventwise⟩ :: []) := by
  decide

theorem witness_SeqAdvancesByOne :
    ((inProgress 0).seq = .pos 0 ∧ (inProgress 0).job[0]? = some (plainAction (.write .lat .H)) ∧
      0 + 1 < (inProgress 0).job.length) ∧
    ((inProgress 1).seq = .pos 1 ∧ (inProgress 1).job[1]? = some (plainAction (.write .lat .L)) ∧
      1 + 1 = (inProgress 1).job.length) := by decide

theorem witness_SmallStepsRefineTheCall : s0.seq = .idle ∧ s0.job = [] := by decide

theorem witness_HistoryOnlyGrows :
    (∃ t, step (withCall .clear .whole) = .next t) ∧ ∃ t, step (inProgress 0) = .next t :=
  ⟨⟨_, rfl⟩, _, rfl⟩

theorem witness_OperationsRespectLineHazards :
    (∃ t, callOperation .home s0 = .next t) ∧ ∃ t, callOperation (.setCursor 16 0) s0 = .next t :=
  ⟨⟨_, rfl⟩, _, rfl⟩

/-- A display of which nothing is known is as the invariant asks. -/
theorem unknownBeforeInitialize_unknown : UnknownBeforeInitialize Display.unknown :=
  ⟨fun _ => ⟨rfl, rfl, rfl⟩, fun _ => rfl, fun _ _ => rfl, fun _ => rfl, fun _ => rfl⟩

/-- A state with a call waiting meets the invariant. -/
theorem inv_withCall (op : Operation) (pace : Pace) : StateInv (withCall op pace) where
  sequenced := (sequenced_idle rfl).mpr ⟨rfl, rfl, rfl, rfl, fun _ h => nomatch h⟩
  ddram := ⟨.nil, fun _ h => nomatch h⟩
  uninitialised := unknownBeforeInitialize_unknown
  cells := fun _ h => nomatch h
  accepted := fun _ h => nomatch h
  faults := rfl
  rejected := rfl

/-- CLEAR taken, before its first event. -/
def taken : State := s0.recordOperation .clear

/-- CLEAR in progress, at its first event. -/
def clearing : State := taken.startJob (jobOf Config.latchVariant Config.timing Operation.clear.words)

/-- CLEAR sent whole settles. -/
theorem settled_taken : Settled (taken.sendAll Operation.clear.words) where
  job := by rw [State.sendAll_job]; rfl
  words := by rw [State.sendAll_words, State.sendAll_accepted]; rfl
  trace := by rw [State.sendAll_trace, State.sendAll_words]; rfl
  delivered := by rw [State.sendAll_delivered, State.sendAll_words]; rfl
  wires := fun T h => by
    rw [State.sendAll_words] at h
    exact State.sendAll_wires taken Operation.clear.words rfl h

/-- An operation in progress meets the invariant. -/
theorem inv_clearing : StateInv clearing where
  sequenced := by
    obtain ⟨hs, hj, hf⟩ := State.startJob_finish (s := taken)
      (job := jobOf Config.latchVariant Config.timing Operation.clear.words) rfl rfl (List.cons_ne_nil _ _)
    refine (sequenced_pos hs).mpr ⟨?_, ?_⟩
    · exact lt_of_lt_of_eq (Nat.zero_lt_succ _) (congrArg List.length hj).symm
    · exact hf ▸ State.sendAll_eq taken Operation.clear.words ▸ settled_taken
  ddram := ⟨.nil, fun _ h => nomatch h⟩
  uninitialised := unknownBeforeInitialize_unknown
  cells := fun _ h => nomatch h
  accepted := by decide
  faults := rfl
  rejected := rfl

theorem witness_StepKeepsInv :
    (StateInv (withCall .clear .whole) ∧ ∃ t, step (withCall .clear .whole) = .next t) ∧
    (StateInv clearing ∧ ∃ t, step clearing = .next t) :=
  ⟨⟨inv_withCall .clear .whole, _, rfl⟩, inv_clearing, _, rfl⟩

theorem witness_NoStepFaults : StateInv (withCall (.print [0x48, 0x69]) .eventwise) :=
  inv_withCall (.print [0x48, 0x69]) .eventwise

theorem witness_DdramWriteThenRead : Memory.wf [(0x00, 0x41), (0x7F, 0x42)] ∧ Memory.wf [] := by decide

theorem witness_LatchedByStrobeSampling : s0.booted = true := rfl

end Sys2Proof.Tests
end

section
/-! What a host call answers, said once for every operation: whole or started, it is rejected, refused, or sends the
operation's words (`10_state.md` R24, `44_operations.md` R160 to R168, `60_exceptions.md` R200 to R207). -/

namespace Sys2Proof.Machine

/-! The word of a decoded instruction (R85, R86). -/

/-- A decoded word encodes back: the instruction is in its domain and `T` is its word. A reserved byte is no
instruction's. -/
def decodesBack (T : TWord) : Decoded → Bool
  | .instr i => i.wellFormed && encode i == T
  | .reserved _ => true

theorem decodesBack_control : ∀ b : Byte, decodesBack ⟨false, b⟩ (decodeWord ⟨false, b⟩) = true := by decide

theorem decodesBack_decodeWord (T : TWord) : decodesBack T (decodeWord T) = true := by
  obtain ⟨rs, b⟩ := T
  cases rs with
  | false => exact decodesBack_control b
  | true => simp [decodeWord, decodesBack, Instr.wellFormed, encode]

/-- The instruction a word decodes to is in its domain, and the word is its own (R86). -/
theorem encode_of_decodeWord {T : TWord} {i : Instr} (h : decodeWord T = .instr i) :
    i.wellFormed = true ∧ encode i = T := by
  have hb := decodesBack_decodeWord T
  simpa [h, decodesBack] using hb

/-! The sends of a list of words. -/

/-- What a list of words answers from SEQ idle: their sends in order, or the refusal of the first where SCK and LAT are
not known to be low (R168, R232). -/
def sendsOrRefuses (Ts : List TWord) (s : State) : Host.Outcome State Fault Refusal :=
  if Ts = [] ∨ s.booted = true then .next (s.sendAll Ts) else .refused .bootRequirement

theorem transmit_eq_sendsOrRefuses {s : State} (hs : s.seq = .idle) (T : TWord) :
    transmit T s = sendsOrRefuses [T] s := by
  simp [transmit, sendsOrRefuses, hs, State.sendAll]

theorem exec_eq_sendsOrRefuses (i : Instr) {s : State} (hs : s.seq = .idle) (h : i.wellFormed = true) :
    exec i s = sendsOrRefuses [encode i] s := by
  rw [exec_wellFormed h, transmit_eq_sendsOrRefuses hs]

theorem execAll_eq_sendsOrRefuses {s : State} (hs : s.seq = .idle) {is : List Instr}
    (h : ∀ i ∈ is, i.wellFormed = true) : execAll is s = sendsOrRefuses (is.map encode) s := by
  cases is with
  | nil => rfl
  | cons i is =>
    by_cases hb : s.booted = true
    · rw [execAll_wellFormed h s hs hb, sendsOrRefuses, if_pos (.inr hb)]
    · simp [execAll, exec_eq_sendsOrRefuses i hs (h i (by simp)), sendsOrRefuses, hb]

/-! The operations. -/

/-- An operation whose arguments raise a fault is rejected: the fault is delivered and nothing else happens (R200,
R207). -/
theorem Operation.body_of_fault {op : Operation} {f : HostFault} (hf : op.fault = some f) {s : State}
    (hs : s.seq = .idle) : op.body s = .next (s.raise f) := by
  cases op with
  | setAddress addr =>
    simp only [Operation.fault, Option.ite_none_right_eq_some, Option.some.injEq] at hf
    obtain ⟨ha, rfl⟩ := hf
    simp [Operation.body, opSetAddress, exec, execSetAddress, hs, ha]
  | setCursor col row =>
    cases ht : translateCursor col row <;> simp_all [Operation.fault, Operation.body, opSetCursor]
  | _ => simp [Operation.fault] at hf

/-- A rejected operation has no words (R7, R200). -/
theorem Operation.words_of_fault {op : Operation} {f : HostFault} (hf : op.fault = some f) : op.words = [] := by
  cases op with
  | setAddress addr =>
    simp only [Operation.fault, Option.ite_none_right_eq_some] at hf
    simp [Operation.words, hf.1]
  | setCursor col row =>
    cases ht : translateCursor col row <;> simp_all [Operation.fault, Operation.words]
  | _ => simp [Operation.fault] at hf

/-- An operation without a fault sends its words in order (R160 to R167, R88). -/
theorem Operation.body_of_no_fault {op : Operation} (hf : op.fault = none) {s : State} (hs : s.seq = .idle) :
    op.body s = sendsOrRefuses op.words s := by
  cases op with
  | initializeDisplay => exact execAll_eq_sendsOrRefuses hs (by decide)
  | clear => exact exec_eq_sendsOrRefuses .clear hs rfl
  | home => exact exec_eq_sendsOrRefuses .home hs rfl
  | powerControl d c b => exact exec_eq_sendsOrRefuses (.powerControl d c b) hs rfl
  | shift t r => exact exec_eq_sendsOrRefuses (.shift t r) hs rfl
  | setAddress addr =>
    have ha : ¬ addr > Config.maxAddr := by simpa [Operation.fault] using hf
    rw [Operation.words, if_neg ha]
    exact exec_eq_sendsOrRefuses (.setAddress addr) hs (decide_eq_true (Nat.le_of_not_gt ha))
  | setCursor col row =>
    cases ht : translateCursor col row with
    | addr a =>
      have ha : (Instr.setAddress a.toNat).wellFormed = true := decide_eq_true (Nat.le_of_lt_succ a.isLt)
      simpa [Operation.body, opSetCursor, opSetAddress, Operation.words, ht] using exec_eq_sendsOrRefuses _ hs ha
    | raises f => simp [Operation.fault, ht] at hf
  | print text => exact execAll_eq_sendsOrRefuses hs (charInstrs_wellFormed text)
  | send rs byte =>
    cases hd : decodeWord ⟨rs, byte⟩ with
    | instr i =>
      obtain ⟨hw, he⟩ := encode_of_decodeWord hd
      simpa [Operation.body, opSend, Operation.words, hd, he] using exec_eq_sendsOrRefuses _ hs hw
    | reserved b =>
      simpa [Operation.body, opSend, Operation.words, hd] using transmit_eq_sendsOrRefuses hs ⟨rs, byte⟩

/-- The answers of a call: the first when it is performed whole, the second when it is started eventwise (R24). -/
inductive CallAnswers (op : Operation) (s : State) :
    Host.Outcome State Fault Refusal → Host.Outcome State Fault Refusal → Prop
  /-- it meets the model's boundary (R204, R232) -/
  | refuses (r : Refusal) : CallAnswers op s (.refused r) (.refused r)
  /-- its arguments raise a fault (R200) -/
  | rejects (f : HostFault) (hf : op.fault = some f) :
      CallAnswers op s (.next ((s.recordOperation op).raise f)) (.next ((s.recordOperation op).raise f))
  /-- it sends nothing and is complete once taken (R169) -/
  | completes (hf : op.fault = none) (hw : op.words = []) :
      CallAnswers op s (.next (s.recordOperation op)) (.next (s.recordOperation op))
  /-- it sends its words: at once, or as its event list (R168) -/
  | sends (hf : op.fault = none) (hw : op.words ≠ []) (hb : s.booted = true) :
      CallAnswers op s (.next ((s.recordOperation op).sendAll op.words))
        (.next ((s.recordOperation op).startJob (jobOf Config.latchVariant Config.timing op.words)))

/-- From SEQ idle, what a call answers depends on its arguments, its words and the boot requirement alone, and performed
whole and started it answers alike. -/
theorem callAnswers_of_idle (op : Operation) {s : State} (hs : s.seq = .idle) :
    CallAnswers op s (callOperation op s) (startOperation op s) := by
  cases hr : op.refusal with
  | some r => simpa [callOperation, startOperation, hs, hr] using CallAnswers.refuses r
  | none =>
    cases hf : op.fault with
    | some f =>
      simpa [callOperation, startOperation, hs, hr, hf, Operation.body_of_fault hf] using CallAnswers.rejects f hf
    | none =>
      simp only [callOperation, startOperation, hs, hr, hf, if_true]
      rw [Operation.body_of_no_fault hf (by simpa using hs), sendsOrRefuses, State.recordOperation_booted]
      by_cases hw : op.words = []
      · simpa [hw, State.sendAll] using CallAnswers.completes hf hw
      · by_cases hb : s.booted = true
        · simpa [hw, hb] using CallAnswers.sends hf hw hb
        · simpa [hw, hb] using CallAnswers.refuses .bootRequirement

end Sys2Proof.Machine
end

section
/-! What one step can do, said once, and what it leaves of each field (`10_state.md` R24 to R26). -/

namespace Sys2Proof.Machine

section StartJob
variable (s : State) (job : List JobItem)

@[simp] theorem State.startJob_trace : (s.startJob job).trace = s.trace := by unfold State.startJob; split <;> rfl
@[simp] theorem State.startJob_words : (s.startJob job).words = s.words := by unfold State.startJob; split <;> rfl
@[simp] theorem State.startJob_display : (s.startJob job).display = s.display := by
  unfold State.startJob; split <;> rfl
@[simp] theorem State.startJob_delivered : (s.startJob job).delivered = s.delivered := by
  unfold State.startJob; split <;> rfl
@[simp] theorem State.startJob_accepted : (s.startJob job).accepted = s.accepted := by
  unfold State.startJob; split <;> rfl
@[simp] theorem State.startJob_rejected : (s.startJob job).rejected = s.rejected := by
  unfold State.startJob; split <;> rfl
@[simp] theorem State.startJob_faults : (s.startJob job).faults = s.faults := by
  unfold State.startJob; split <;> rfl

end StartJob

section Advance
variable (s : State) (n : Nat)

@[simp] theorem State.advance_trace : (s.advance n).trace = s.trace := by unfold State.advance; split <;> rfl
@[simp] theorem State.advance_words : (s.advance n).words = s.words := by unfold State.advance; split <;> rfl
@[simp] theorem State.advance_display : (s.advance n).display = s.display := by unfold State.advance; split <;> rfl
@[simp] theorem State.advance_delivered : (s.advance n).delivered = s.delivered := by
  unfold State.advance; split <;> rfl
@[simp] theorem State.advance_accepted : (s.advance n).accepted = s.accepted := by
  unfold State.advance; split <;> rfl
@[simp] theorem State.advance_rejected : (s.advance n).rejected = s.rejected := by
  unfold State.advance; split <;> rfl
@[simp] theorem State.advance_faults : (s.advance n).faults = s.faults := by unfold State.advance; split <;> rfl

end Advance

section Note
variable (s : State) (a : JobItem)

/-- The words that a note records in WORDS. -/
def Note.recorded : Note → List TWord
  | .begins T => [T]
  | .plain | .delivers _ => []

/-- The words that a note delivers to the display. -/
def Note.delivered : Note → List TWord
  | .delivers T => [T]
  | .plain | .begins _ => []

@[simp] theorem State.performAction_words : (s.performAction a).words = s.words ++ a.note.recorded := by
  unfold State.performAction; split <;> simp [Note.recorded, *]
@[simp] theorem State.performAction_delivered :
    (s.performAction a).delivered = s.delivered ++ a.note.delivered := by
  unfold State.performAction; split <;> simp [Note.delivered, *]
@[simp] theorem State.performAction_display :
    (s.performAction a).display = a.note.delivered.foldl Display.receive s.display := by
  unfold State.performAction; split <;> simp [Note.delivered, *]

end Note

/-- Everything a step that answers a next state can do. -/
inductive StepEffect (s : State) : State → Prop
  /-- no call waits (R230) -/
  | waits (hs : s.seq = .idle) : StepEffect s s
  /-- a call is rejected -/
  | rejects (hs : s.seq = .idle) (op : Operation) (port : List Call) (f : HostFault) (hf : op.fault = some f) :
      StepEffect s ((({ s with port := port } : State).recordOperation op).raise f)
  /-- a call is performed whole, or sends nothing -/
  | sends (hs : s.seq = .idle) (op : Operation) (port : List Call) (hf : op.fault = none)
      (hb : op.words = [] ∨ s.booted = true) :
      StepEffect s ((({ s with port := port } : State).recordOperation op).sendAll op.words)
  /-- a call that sends is started -/
  | starts (hs : s.seq = .idle) (op : Operation) (port : List Call) (hf : op.fault = none) (hw : op.words ≠ [])
      (hb : s.booted = true) :
      StepEffect s ((({ s with port := port } : State).recordOperation op).startJob
        (jobOf Config.latchVariant Config.timing op.words))
  /-- the next event of the operation in progress is performed -/
  | event (n : Nat) (hs : s.seq = .pos n) (hn : n < s.job.length) :
      StepEffect s ((s.performAction s.job[n]).advance n)

/-- A call taken from the port is rejected, sent or started. -/
theorem stepEffect_of_takeCall {c : Call} {port : List Call} {s t : State} (hs : s.seq = .idle)
    (h : takeCall c { s with port := port } = .next t) : StepEffect s t := by
  obtain ⟨op, pace⟩ := c
  have answers := callAnswers_of_idle op (s := { s with port := port }) hs
  cases pace with
  | whole =>
    replace h : callOperation op { s with port := port } = .next t := h
    rw [h] at answers
    generalize startOperation op _ = started at answers
    cases answers with
    | rejects f hf => exact .rejects hs op port f hf
    | completes hf hw => simpa [hw, State.sendAll] using StepEffect.sends hs op port hf (.inl hw)
    | sends hf hw hb => exact .sends hs op port hf (.inr hb)
  | eventwise =>
    replace h : startOperation op { s with port := port } = .next t := h
    rw [h] at answers
    generalize callOperation op _ = whole at answers
    cases answers with
    | rejects f hf => exact .rejects hs op port f hf
    | completes hf hw => simpa [hw, State.sendAll] using StepEffect.sends hs op port hf (.inl hw)
    | sends hf hw hb => exact .starts hs op port hf hw hb

theorem stepEffect_of_step {s t : State} (h : step s = .next t) : StepEffect s t := by
  cases hs : s.seq with
  | idle =>
    rw [step_idle hs, idleStep] at h
    split at h
    · obtain rfl := Host.Outcome.next.inj h
      exact .waits hs
    · exact stepEffect_of_takeCall hs h
  | pos n =>
    rw [step_pos hs] at h
    by_cases hn : n < s.job.length
    · rw [stepEvent_of_lt hn] at h
      obtain rfl := Host.Outcome.next.inj h
      exact .event n hs hn
    · simp [stepEvent, hn] at h

/-- Settles O50: `SEQ = n` performs event `n`, and `advance` has the two targets of R24. -/
theorem seqAdvancesByOne : Obligations.SeqAdvancesByOne := by
  intro s n a hs ha
  obtain ⟨hn, rfl⟩ := List.getElem?_eq_some_iff.mp ha
  refine ⟨_, (step_pos hs).trans (stepEvent_of_lt hn), by simp, fun h => ?_, fun h => ?_⟩
  · obtain ⟨hseq, hjob, -⟩ := State.advance_of_lt h
    exact ⟨hseq, hjob⟩
  · rw [State.advance_of_last h]
    exact ⟨rfl, rfl⟩

/-- Settles O52: each effect of a step appends to the histories. -/
theorem historyOnlyGrows : Obligations.HistoryOnlyGrows := by
  intro s t h
  cases stepEffect_of_step h with
  | waits | rejects | sends | starts | event => simp

end Sys2Proof.Machine
end

section
/-! The small step refines the big step (`10_state.md` R24). -/

namespace Sys2Proof.Machine

/-- The event list of an operation is empty only when it sends nothing (R169). -/
theorem jobOf_ne_nil (v : LatchVariant) (t : Timing) {Ts : List TWord} (h : Ts ≠ []) : jobOf v t Ts ≠ [] := by
  obtain ⟨T, rest, rfl⟩ := List.exists_cons_of_ne_nil h
  exact List.cons_ne_nil _ _

/-- The job of an operation has as many elements as the operation has events. -/
theorem jobOf_length (op : Operation) :
    (jobOf Config.latchVariant Config.timing op.words).length = op.events.length := by
  rw [Operation.events, ← jobOf_events, List.length_map]

/-- As many steps as events are left run the operation to its end. -/
theorem runSteps_finish {k n : Nat} {s : State} (hs : s.seq = .pos n) (hk : n + (k + 1) = s.job.length) :
    runSteps (k + 1) s = .next (s.finish n) := by
  have hn : n < s.job.length := by omega
  induction k generalizing n s with
  | zero =>
    have hstep := (step_pos hs).trans (stepEvent_of_lt hn)
    rw [State.advance_of_last hk] at hstep
    simp [runSteps, hstep]
  | succ k ih =>
    have hstep := (step_pos hs).trans (stepEvent_of_lt hn)
    obtain ⟨hseq, hjob, hfin⟩ := State.advance_of_lt (s := s) (n := n) (by omega)
    rw [runSteps, hstep, ← hfin]
    exact ih hseq (by rw [hjob]; omega) (by rw [hjob]; omega)

/-- An operation started and stepped through its events has sent its words. -/
theorem runSteps_startJob {s : State} (hs : s.seq = .idle) (hj : s.job = []) {op : Operation} (hw : op.words ≠ []) :
    runSteps op.events.length (s.startJob (jobOf Config.latchVariant Config.timing op.words)) =
      .next (s.sendAll op.words) := by
  have hne := jobOf_ne_nil Config.latchVariant Config.timing hw
  obtain ⟨hseq, hjob, hfin⟩ := State.startJob_finish hs hj hne
  obtain ⟨k, hk⟩ := Nat.exists_eq_add_one_of_ne_zero (List.length_eq_zero_iff.not.mpr hne)
  rw [← jobOf_length, hk, runSteps_finish hseq (by rw [hjob, hk]; omega), hfin, State.sendAll_eq]

/-- Settles O51: an operation that sends runs its job to the end (`runSteps_startJob`); any other call answers alike in
both paces. -/
theorem smallStepsRefineTheCall : Obligations.SmallStepsRefineTheCall := by
  intro s op rest hs hj
  have answers := callAnswers_of_idle op (s := { s with port := rest }) hs
  have hstart : step { s with port := ⟨op, .eventwise⟩ :: rest } = startOperation op { s with port := rest } :=
    step_idle hs
  have hwhole : step { s with port := ⟨op, .whole⟩ :: rest } = callOperation op { s with port := rest } :=
    step_idle hs
  rw [runSteps, hstart, hwhole]
  generalize startOperation op _ = started, callOperation op _ = whole at answers ⊢
  cases answers with
  | refuses r => rfl
  | rejects f hf => simp [Operation.events, Operation.words_of_fault hf, runSteps]
  | completes hf hw => simp [Operation.events, hw, runSteps]
  | sends hf hw hb => exact runSteps_startJob (by simpa using hs) (by simpa using hj) hw

end Sys2Proof.Machine
end

section
/-! The display keeps what the invariant says of it on receiving any word (`45_downstream_devices.md` R187, R190,
`93_implementation_defined.md` U9, U11; log 12, log 26). -/

namespace Sys2Proof.Machine

/-- The address is a cell exactly when it lies in one of the two rows (R51). -/
theorem isCell_iff (a : DdramAddr) : isCell a = true ↔ a.toNat < 0x10 ∨ (0x40 ≤ a.toNat ∧ a.toNat < 0x50) := by
  simp [isCell]

/-- An instruction leaves DDRAM, forgets it, or stores a character in a cell. -/
theorem Display.act_ddram_cases (d : Display) (i : Instr) :
    (d.act i).ddram = d.ddram ∨ (d.act i).ddram = Memory.unknown ∨
      ∃ (a : DdramAddr) (ch : Byte), isCell a = true ∧ (d.act i).ddram = Memory.write d.ddram a.toNat ch := by
  cases i with
  | functionSet | powerControl | setAddress => exact .inl rfl
  | clear | home | shift => exact .inr (.inl rfl)
  | writeChar ch =>
    show (d.storeChar ch).ddram = _ ∨ (d.storeChar ch).ddram = _ ∨ ∃ a v, _ ∧ (d.storeChar ch).ddram = _
    unfold Display.storeChar
    split
    · exact .inr (.inl rfl)
    · split
      · exact .inr (.inr ⟨_, ch, ‹_›, rfl⟩)
      · exact .inr (.inl rfl)

theorem ddramCells_unknown : DdramCells Memory.unknown := fun _ h => nomatch h

theorem DdramCells.act {d : Display} (h : DdramCells d.ddram) (i : Instr) : DdramCells (d.act i).ddram := by
  rcases d.act_ddram_cases i with e | e | ⟨a, ch, ha, e⟩ <;> rw [e]
  · exact h
  · exact ddramCells_unknown
  · intro c hc
    rcases Memory.mem_write hc with hc | rfl
    · exact h c hc
    · exact (isCell_iff a).mp ha

theorem DdramCells.receive {d : Display} (h : DdramCells d.ddram) (T : TWord) : DdramCells (d.receive T).ddram := by
  rcases d.receive_cases T with e | ⟨i, -, e⟩ | ⟨i, -, e⟩ <;> rw [e]
  · exact ddramCells_unknown
  · exact DdramCells.act (d := Display.unknown) ddramCells_unknown i
  · exact h.act i

/-- Where an instruction leaves the initialization: not begun, begun by FUNCTION_SET, carried on by CLEAR or HOME, or
done (R160). -/
theorem InitProgress.after_cases (p : InitProgress) (i : Instr) :
    p.after i = .notStarted ∨ (p.after i = .functionSet ∧ i = .functionSet) ∨ p.after i = .done ∨
      (p ≠ .done ∧ p.after i ≠ .notStarted ∧ p.after i ≠ .functionSet ∧ (i = .clear ∨ i = .home)) := by
  unfold InitProgress.after
  split <;> simp

/-- An instruction that carries the initialization on, or comes after it, has its effect. -/
theorem Display.receive_carries {d : Display} {T : TWord} {i : Instr} (h : decodeWord T = .instr i)
    (hn : d.progress.after i ≠ .notStarted) (hf : d.progress.after i ≠ .functionSet) :
    d.receive T = { d.act i with progress := d.progress.after i } := by
  cases hp : d.progress.after i with
  | notStarted => exact absurd hp hn
  | functionSet => exact absurd hp hf
  | clear | home | done => simp only [Display.receive, h, hp]

theorem UnknownBeforeInitialize.unknown : UnknownBeforeInitialize Display.unknown :=
  ⟨fun _ => ⟨rfl, rfl, rfl⟩, fun _ => rfl, fun _ _ => rfl, fun _ => rfl, fun _ => rfl⟩

/-- Nothing is asked of a display once the initialization is complete. -/
theorem UnknownBeforeInitialize.of_done {d : Display} (h : d.progress = .done) : UnknownBeforeInitialize d where
  flags := fun hp => absurd h hp
  address := fun hp => absurd h hp
  ddram := fun hp => absurd h hp
  moves := fun hp => absurd h hp
  all := fun hp => nomatch h.symm.trans hp

/-- FUNCTION_SET on a display of which nothing is known leaves all but its own three registers unknown. -/
theorem UnknownBeforeInitialize.begun :
    UnknownBeforeInitialize { Display.unknown.act .functionSet with progress := .functionSet } :=
  ⟨fun _ => ⟨rfl, rfl, rfl⟩, fun _ => rfl, fun _ _ => rfl, fun _ => rfl, fun h => nomatch h⟩

/-- CLEAR and HOME within the initialization leave the power flags, AC, DDRAM and the shift state unknown. -/
theorem UnknownBeforeInitialize.clearOrHome {d : Display} (h : UnknownBeforeInitialize d) (hd : d.progress ≠ .done)
    {p : InitProgress} (hp : p ≠ .notStarted) : UnknownBeforeInitialize { d.clearOrHome with progress := p } :=
  ⟨fun _ => h.flags hd, fun _ => rfl, fun _ _ => rfl, fun _ => rfl, fun e => absurd e hp⟩

theorem UnknownBeforeInitialize.receive {d : Display} (h : UnknownBeforeInitialize d) (T : TWord) :
    UnknownBeforeInitialize (d.receive T) := by
  cases hT : decodeWord T with
  | reserved b => exact Display.receive_reserved hT d ▸ .unknown
  | instr i =>
    rcases d.progress.after_cases i with hp | ⟨hp, rfl⟩ | hp | ⟨hd, hn, hf, hi⟩
    · exact Display.receive_notStarted hT hp ▸ .unknown
    · exact Display.receive_begins hT hp ▸ .begun
    · rw [Display.receive_carries hT (by simp [hp]) (by simp [hp])]
      exact .of_done hp
    · rw [Display.receive_carries hT hn hf]
      rcases hi with rfl | rfl <;> exact h.clearOrHome hd hn

/-- What the invariant says of the display. -/
structure DisplayInv (d : Display) : Prop where
  ddram : Memory.wf d.ddram
  uninitialised : UnknownBeforeInitialize d
  cells : DdramCells d.ddram

theorem DisplayInv.unknown : DisplayInv Display.unknown :=
  ⟨⟨.nil, fun _ h => nomatch h⟩, .unknown, ddramCells_unknown⟩

theorem DisplayInv.receiveAll {d : Display} (h : DisplayInv d) (Ts : List TWord) :
    DisplayInv (Ts.foldl Display.receive d) := by
  induction Ts generalizing d with
  | nil => exact h
  | cons T Ts ih => exact ih ⟨Display.receive_wf T h.ddram, h.uninitialised.receive T, h.cells.receive T⟩

end Sys2Proof.Machine
end

section
/-! Between operations and during them, TRACE, WORDS and the wires agree with the accepted operations (`10_state.md`
R23, R25, R26; `45_downstream_devices.md` R187). -/

namespace Sys2Proof.Machine

/-- The wires are no part of the host's side. -/
theorem WiresHold.withHost {T : TWord} {s : State} (h : WiresHold T s) (accepted rejected : List Operation)
    (faults : List HostFault) (port : List Call) :
    WiresHold T { s with accepted := accepted, rejected := rejected, faults := faults, port := port } :=
  ⟨h.rs, h.ser, h.sck, h.lat, h.srShift, h.srOut⟩

/-- The calls waiting are no part of what is settled. -/
theorem Settled.withPort {s : State} (h : Settled s) (port : List Call) : Settled { s with port := port } :=
  ⟨h.job, h.words, h.trace, h.delivered, fun T hT => (h.wires T hT).withHost _ _ _ _⟩

/-- A rejection leaves a settled state settled (R200). -/
theorem Settled.reject {s : State} (h : Settled s) {op : Operation} {f : HostFault} (hf : op.fault = some f) :
    Settled ((s.recordOperation op).raise f) := by
  rw [State.recordOperation_of_some s hf]
  exact ⟨h.job, h.words, h.trace, h.delivered, fun T hT => (h.wires T hT).withHost _ _ _ _⟩

/-- The last word sent is on the wires after the words of an operation (R23). -/
theorem Settled.wires_sendAll {s : State} (h : Settled s) {op : Operation} (hf : op.fault = none)
    (hb : op.words = [] ∨ s.booted = true) {T : TWord} (hT : (s.words ++ op.words).getLast? = some T) :
    WiresHold T ((s.recordOperation op).sendAll op.words) := by
  by_cases hw : op.words = []
  · rw [hw, State.sendAll, State.recordOperation_of_none s hf]
    exact (h.wires T (by simpa [hw] using hT)).withHost _ _ _ _
  · refine State.sendAll_wires _ _ (by simpa [hw] using hb) ?_
    rwa [List.getLast?_append_of_ne_nil _ hw] at hT

/-- An accepted operation sent from a settled state leaves it settled (R7, R26). -/
theorem Settled.send {s : State} (h : Settled s) {op : Operation} (hf : op.fault = none)
    (hb : op.words = [] ∨ s.booted = true) : Settled ((s.recordOperation op).sendAll op.words) where
  job := by simp [h.job]
  words := by simp [State.recordOperation_of_none s hf, h.words]
  trace := by simp [h.trace]
  delivered := by simp [h.delivered]
  wires := fun T hT => h.wires_sendAll hf hb (by simpa using hT)

/-- An operation started from a settled state settles when it is run to its end (R25). -/
theorem Settled.sequenced_start {s : State} (h : Settled s) (hs : s.seq = .idle) {op : Operation}
    (hf : op.fault = none) (hw : op.words ≠ []) (hb : s.booted = true) :
    Sequenced ((s.recordOperation op).startJob (jobOf Config.latchVariant Config.timing op.words)) := by
  have hne := jobOf_ne_nil Config.latchVariant Config.timing hw
  obtain ⟨hseq, hjob, hfin⟩ :=
    State.startJob_finish (s := s.recordOperation op) (by simpa using hs) (by simpa using h.job) hne
  rw [sequenced_pos hseq, hjob, hfin, ← State.sendAll_eq]
  exact ⟨List.length_pos_iff.mpr hne, h.send hf (.inr hb)⟩

/-- The next event leaves the operation one event nearer its end, or ends it. -/
theorem sequenced_event {s : State} {n : Nat} (hn : n < s.job.length) (hfin : Settled (s.finish n)) :
    Sequenced ((s.performAction s.job[n]).advance n) := by
  by_cases hlast : n + 1 < s.job.length
  · obtain ⟨hseq, hjob, hend⟩ := State.advance_of_lt hlast
    rw [sequenced_pos hseq, hjob, hend]
    exact ⟨hlast, hfin⟩
  · rw [State.advance_of_last (by omega)]
    exact (sequenced_idle rfl).mpr hfin

/-- Each effect of a step keeps a state sequenced. -/
theorem Sequenced.stepEffect {s t : State} (h : Sequenced s) (ht : StepEffect s t) : Sequenced t := by
  cases ht with
  | waits => exact h
  | rejects hs op port f hf =>
    have settled := ((sequenced_idle hs).mp h).withPort port
    exact (sequenced_idle (by simpa using hs)).mpr (settled.reject hf)
  | sends hs op port hf hb =>
    have settled := ((sequenced_idle hs).mp h).withPort port
    exact (sequenced_idle (by simpa using hs)).mpr (settled.send hf hb)
  | starts hs op port hf hw hb =>
    have settled := ((sequenced_idle hs).mp h).withPort port
    exact settled.sequenced_start hs hf hw hb
  | event n hs hn => exact sequenced_event hn ((sequenced_pos hs).mp h).2

end Sys2Proof.Machine
end

section
/-! The invariant of the machine (`10_state.md` R23 to R33). -/

namespace Sys2Proof.Machine

/-- What the invariant says of the operations taken and the faults delivered (R7, R200). -/
structure OutcomesRecorded (s : State) : Prop where
  accepted : ∀ op ∈ s.accepted, op.fault = none
  faults : s.faults = s.rejected.filterMap Operation.fault
  rejected : s.faults.length = s.rejected.length

theorem OutcomesRecorded.accept {s : State} (h : OutcomesRecorded s) {op : Operation} (hf : op.fault = none) :
    OutcomesRecorded (s.recordOperation op) := by
  rw [State.recordOperation_of_none s hf]
  refine ⟨fun o ho => ?_, h.faults, h.rejected⟩
  rcases List.mem_append.mp ho with ho | ho
  · exact h.accepted o ho
  · exact List.mem_singleton.mp ho ▸ hf

theorem OutcomesRecorded.reject {s : State} (h : OutcomesRecorded s) {op : Operation} {f : HostFault}
    (hf : op.fault = some f) : OutcomesRecorded ((s.recordOperation op).raise f) := by
  rw [State.recordOperation_of_some s hf]
  exact ⟨h.accepted, by simp [h.faults, hf], by simp [h.rejected]⟩

/-- Only the accepted and rejected operations and the faults matter to it. -/
theorem OutcomesRecorded.congr {s t : State} (h : OutcomesRecorded s) (ha : t.accepted = s.accepted)
    (hr : t.rejected = s.rejected) (hf : t.faults = s.faults) : OutcomesRecorded t :=
  ⟨ha ▸ h.accepted, hf ▸ hr ▸ h.faults, hf ▸ hr ▸ h.rejected⟩

/-- Each effect of a step records the outcome of the operation it takes. -/
theorem OutcomesRecorded.stepEffect {s t : State} (h : OutcomesRecorded s) (ht : StepEffect s t) :
    OutcomesRecorded t := by
  cases ht with
  | waits => exact h
  | rejects hs op port f hf => exact OutcomesRecorded.reject (s := { s with port := port }) (h.congr rfl rfl rfl) hf
  | sends hs op port hf hb =>
    have taken : OutcomesRecorded { s with port := port } := h.congr rfl rfl rfl
    exact (taken.accept hf).congr (by simp) (by simp) (by simp)
  | starts hs op port hf hw hb =>
    have taken : OutcomesRecorded { s with port := port } := h.congr rfl rfl rfl
    exact (taken.accept hf).congr (by simp) (by simp) (by simp)
  | event n hs hn => exact h.congr (by simp) (by simp) (by simp)

/-- Each effect of a step delivers words to the display, or none. -/
theorem StepEffect.display {s t : State} (ht : StepEffect s t) :
    ∃ Ts : List TWord, t.display = Ts.foldl Display.receive s.display := by
  cases ht with
  | waits => exact ⟨[], rfl⟩
  | rejects hs op port f hf => exact ⟨[], by simp⟩
  | sends hs op port hf hb => exact ⟨op.words, by simp⟩
  | starts hs op port hf hw hb => exact ⟨[], by simp⟩
  | event n hs hn => exact ⟨s.job[n].note.delivered, by simp⟩

/-- The invariant is about the sequencer, the display and the outcomes. -/
theorem stateInv_iff (s : State) :
    StateInv s ↔ Sequenced s ∧ DisplayInv s.display ∧ OutcomesRecorded s :=
  ⟨fun h => ⟨h.sequenced, ⟨h.ddram, h.uninitialised, h.cells⟩, ⟨h.accepted, h.faults, h.rejected⟩⟩,
    fun ⟨hseq, hd, ho⟩ => ⟨hseq, hd.ddram, hd.uninitialised, hd.cells, ho.accepted, ho.faults, ho.rejected⟩⟩

/-- Settles O54: each part of the invariant is kept by each effect of a step. -/
theorem stepKeepsInv : Obligations.StepKeepsInv := by
  intro s t h hstep
  have ht := stepEffect_of_step hstep
  obtain ⟨hseq, hdisplay, houtcomes⟩ := (stateInv_iff s).mp h
  obtain ⟨Ts, hTs⟩ := ht.display
  exact (stateInv_iff t).mpr ⟨hseq.stepEffect ht, hTs ▸ hdisplay.receiveAll Ts, houtcomes.stepEffect ht⟩

/-- Settles O55: at reset no operation has been taken and no word sent. -/
theorem resetHasInv : Obligations.ResetHasInv := by
  intro lines
  refine (stateInv_iff _).mpr ⟨(sequenced_idle rfl).mpr ⟨rfl, rfl, rfl, rfl, fun _ h => nomatch h⟩, .unknown, ?_⟩
  exact ⟨fun _ h => (nomatch h), rfl, rfl⟩

/-- Settles O57: the fields of `State.resetWith` at RESET_LINES' default. -/
theorem resetTable : Obligations.ResetTable :=
  ⟨rfl, rfl, rfl, rfl, rfl, rfl, rfl, rfl, rfl, rfl, rfl, rfl, rfl, rfl, rfl, rfl, rfl, rfl, fun _ => rfl⟩

end Sys2Proof.Machine
end

section
/-! The cursor-address translation (`20_memory.md` R58 to R60): a position inside the geometry and its address determine
each other. -/

namespace Sys2Proof.Machine

theorem translateCursor_inside {col row : Nat} (hc : col ≤ 15) (hr : row ≤ 1) :
    translateCursor col row = .addr (cursorEntry col row) := by
  rw [translateCursor, if_neg]
  simp only [Config.cols, Config.rows]
  omega

theorem translateCursor_outside {col row : Nat} (h : col > 15 ∨ row > 1) :
    translateCursor col row = .raises (.cursorOutOfRange col row) := by
  rw [translateCursor, if_pos]
  exact h

/-- The table as a formula, read off its 32 entries (R58). -/
theorem cursorEntry_toNat {col row : Nat} (hc : col ≤ 15) (hr : row ≤ 1) :
    (cursorEntry col row).toNat = 0x40 * row + col := by
  have table : ∀ r < 2, ∀ c < 16, (cursorEntry c r).toNat = 0x40 * r + c := by decide
  exact table row (by omega) col (by omega)

/-- Row and column are fields of the address, which has nothing between them (R60). -/
theorem position_of_toNat {a : DdramAddr} {col row : Nat} (hc : col ≤ 15) (ha : a.toNat = 0x40 * row + col) :
    (a.getLsbD 6).toNat = row ∧ (a.extractLsb' 0 4).toNat = col ∧ a.extractLsb' 4 2 = 0 := by
  refine ⟨?_, ?_, BitVec.eq_of_toNat_eq ?_⟩
  · rw [BitVec.getLsbD, Nat.toNat_testBit]
    omega
  · rw [BitVec.extractLsb'_toNat, Nat.shiftRight_eq_div_pow]
    omega
  · rw [BitVec.extractLsb'_toNat, Nat.shiftRight_eq_div_pow]
    show _ = 0
    omega

/-- The image of the translation is the cells of the two rows (R51, R60). -/
theorem exists_translateCursor_iff (a : DdramAddr) :
    (∃ col row : Nat, col ≤ 15 ∧ row ≤ 1 ∧ translateCursor col row = .addr a) ↔
      a.toNat < 0x10 ∨ (0x40 ≤ a.toNat ∧ a.toNat < 0x50) := by
  constructor
  · rintro ⟨col, row, hc, hr, h⟩
    rw [translateCursor_inside hc hr, Translation.addr.injEq] at h
    have ha := h ▸ cursorEntry_toNat hc hr
    omega
  · intro h
    have hc : a.toNat % 0x10 ≤ 15 := by omega
    have hr : a.toNat / 0x40 ≤ 1 := by omega
    refine ⟨a.toNat % 0x10, a.toNat / 0x40, hc, hr, ?_⟩
    rw [translateCursor_inside hc hr, Translation.addr.injEq]
    refine BitVec.eq_of_toNat_eq ?_
    rw [cursorEntry_toNat hc hr]
    omega

/-- Settles O42: the table is `0x40 row + col` on the positions inside, from which both directions are read. -/
theorem translationIsBijective : Obligations.TranslationIsBijective := by
  refine ⟨fun col row hc hr => ?_, fun col row => translateCursor_outside,
    fun a => (exists_translateCursor_iff a).symm⟩
  have ha := cursorEntry_toNat hc hr
  exact ⟨cursorEntry col row, translateCursor_inside hc hr, ha, position_of_toNat hc ha⟩

end Sys2Proof.Machine
end

section
/-! Reads of DDRAM after a write (`20_memory.md` R50). -/

namespace Sys2Proof.Machine

/-- The written address reads as the byte written and every other address as before, in canonical form or not. -/
theorem Memory.read_write (m : Memory) (a : Nat) (v : Byte) (x : Nat) :
    Memory.read (Memory.write m a v) x = if x = a then some v else Memory.read m x := by
  induction m with
  | nil => simp only [Memory.write, Memory.read, eq_comm]
  | cons c m ih =>
    obtain ⟨k, y⟩ := c
    rcases lt_trichotomy a k with hlt | rfl | hgt
    · simp only [Memory.write, if_pos hlt, Memory.read, eq_comm]
    · by_cases hx : a = x <;> simp [Memory.write, Memory.read, hx, eq_comm]
    · have hw : Memory.write ((k, y) :: m) a v = (k, y) :: Memory.write m a v := by
        rw [Memory.write, if_neg hgt.not_gt, if_neg hgt.ne']
      rw [hw, Memory.read, Memory.read, ih]
      by_cases hx : k = x
      · subst hx
        simp [hgt.ne]
      · simp [hx]

/-- Settles O58: `Memory.write_wf` and `Memory.read_write` at a 7-bit address. -/
theorem ddramWriteThenRead : Obligations.DdramWriteThenRead :=
  fun m a v hm => ⟨Memory.write_wf hm a.isLt, Memory.read_write m a.toNat v⟩

end Sys2Proof.Machine
end

section
/-! What the block takes: transfers of one width (`20_memory.md` R56), and calls in call order (R65, `44_operations.md`
R170). -/

namespace Sys2Proof.Machine

/-- Settles O9: the count is compared with BITS before anything else. -/
theorem otherBitCountsRefused : Obligations.OtherBitCountsRefused :=
  fun _ _ _ _ h => if_neg h

/-- From SEQ idle the first waiting call is taken and the others go on waiting (R65, R170). -/
theorem step_takes_first {s : State} {c : Call} {rest : List Call} (hs : s.seq = .idle) (hp : s.port = c :: rest) :
    step s = takeCall c { s with port := rest } := by
  rw [step_idle hs, idleStep, hp]

/-- Settles O49: the step takes the first call, in either pace. -/
theorem callsTakenInOrder : Obligations.CallsTakenInOrder :=
  fun _ _ _ hs => ⟨step_takes_first hs, step_takes_first hs⟩

end Sys2Proof.Machine
end

section
/-! The encoder and the decoder are inverse to one another, and the rows of the opcode table (`30_encoding.md` R84 to
R87). -/

namespace Sys2Proof

/-- The decoder reads a word's flag and byte back from its 9 bits. -/
theorem decode_bits (T : TWord) : decode T.bits = decodeWord T := by
  rw [decode, TWord.ofBits_bits]

/-! The decoder reads back what the encoder wrote (R86). -/

/-- The byte `0x80 + addr` is read as the address `addr`: its bit 7 is set and the bits below are the address's. -/
theorem decodeWord_encode_setAddress {addr : Nat} (h : addr ≤ Config.maxAddr) :
    decodeWord (encode (.setAddress addr)) = .instr (.setAddress addr) := by
  have hlt : addr < 2 ^ 7 := Nat.lt_succ_of_le h
  have hbit : (0x80 ||| BitVec.ofNat 8 addr).getLsbD 7 = true := by simp
  have hlow : ((0x80 ||| BitVec.ofNat 8 addr).extractLsb' 0 7).toNat = addr := by
    rw [BitVec.extractLsb'_or]
    simpa using hlt
  simp only [encode, decodeWord, hbit, hlow, if_true, Bool.false_eq_true, if_false]

theorem decodeWord_encode {i : Instr} (h : i.wellFormed = true) : decodeWord (encode i) = .instr i := by
  cases i with
  | functionSet | clear | home => decide
  | powerControl d c b => cases d <;> cases c <;> cases b <;> decide
  | shift t r => cases t <;> cases r <;> decide
  | setAddress addr => exact decodeWord_encode_setAddress (of_decide_eq_true h)
  | writeChar ch => rfl

/-- Settles O2: the bits are the word's, and the decoder reads every instruction back from its word. -/
theorem decodeOfEncode : Obligations.DecodeOfEncode :=
  fun i h => (decode_bits (encode i)).trans (decodeWord_encode h)

/-- Settles O3: the word that a decoded instruction is encoded to has the bits decoded. -/
theorem encodeOfDecode : Obligations.EncodeOfDecode := by
  intro w i h
  obtain ⟨hw, he⟩ := Machine.encode_of_decodeWord h
  exact ⟨by rw [he, TWord.bits_ofBits], hw⟩

/-! The rows of the opcode table (R84). -/

/-- The word of a well-formed instruction selects the instruction's row. -/
theorem row_selects_encode {i : Instr} (h : i.wellFormed = true) : i.row.selects (encode i).bits = true := by
  cases i with
  | functionSet => exact Laws.RowMatch.functionSet h
  | clear => exact Laws.RowMatch.clear h
  | home => exact Laws.RowMatch.home h
  | powerControl d c b => exact Laws.RowMatch.powerControl d c b h
  | shift t r => exact Laws.RowMatch.shift t r h
  | setAddress addr => exact Laws.RowMatch.setAddress addr h
  | writeChar ch => exact Laws.RowMatch.writeChar ch h

@[simp] theorem boolBit_getElem (b : Bool) (k : Nat) (hk : k < 8) : (boolBit b)[k] = (decide (k = 0) && b) := by
  cases b <;> simp [boolBit]

@[simp] theorem ShiftTarget.isDisplay_ite (b : Bool) : (if b then display else cursor).isDisplay = b := by
  cases b <;> rfl

@[simp] theorem Direction.isRight_ite (b : Bool) : (if b then right else left).isRight = b := by cases b <;> rfl

/-- Every row fixes the register-select flag. -/
theorem row_mask_flag (i : Instr) : i.row.mask.getLsbD 8 = true := by cases i <;> simp [Instr.row]

/-- A word that selects an instruction's row is read as the instruction when the bits of its byte that the mask leaves
free are the instruction's: the two words then agree on every bit. -/
theorem decode_of_selects {i : Instr} {T : TWord} (hi : i.wellFormed = true) (hT : i.row.selects T.bits = true)
    (free : ∀ k < 8, i.row.mask.getLsbD k = false → (encode i).byte.getLsbD k = T.byte.getLsbD k) :
    decode T.bits = .instr i := by
  have hand : (encode i).bits &&& i.row.mask = T.bits &&& i.row.mask :=
    (beq_iff_eq.mp (row_selects_encode hi)).trans (beq_iff_eq.mp hT).symm
  have hbits : (encode i).bits = T.bits := by
    refine BitVec.eq_of_getLsbD_eq fun k hk => ?_
    cases hm : i.row.mask.getLsbD k with
    | true => simpa [hm] using congrArg (BitVec.getLsbD · k) hand
    | false =>
      have hne : k ≠ 8 := by
        rintro rfl
        simp only [row_mask_flag, Bool.true_eq_false] at hm
      have hk8 : k < 8 := by omega
      simpa only [TWord.bits_getLsbD, if_pos hk8] using free k hk8 hm
  rw [← hbits]
  exact decodeOfEncode i hi

/-- A row with no free bits selects one word only. -/
theorem eq_pattern_of_selects {r : OpcodeRow} (hr : r.mask = BitVec.allOnes 9) {w : BitVec 9}
    (hw : r.selects w = true) : w = r.pattern := by
  have h : w &&& r.mask = r.pattern := beq_iff_eq.mp hw
  rwa [hr, BitVec.and_allOnes] at h

/-- A word that selects a row of the table is read as an instruction of the row, the one its free bits give. -/
theorem exists_decode_of_selects {r : OpcodeRow} (hr : r ∈ opcodeTable) {T : TWord} (hT : r.selects T.bits = true) :
    ∃ i, decode T.bits = .instr i ∧ i.row = r := by
  simp only [opcodeTable, List.mem_cons, List.not_mem_nil, or_false] at hr
  rcases hr with rfl | rfl | rfl | rfl | rfl | rfl | rfl
  · exact ⟨.functionSet, by rw [eq_pattern_of_selects rfl hT]; rfl, rfl⟩
  · exact ⟨.clear, by rw [eq_pattern_of_selects rfl hT]; rfl, rfl⟩
  · exact ⟨.home, by rw [eq_pattern_of_selects rfl hT]; rfl, rfl⟩
  · refine ⟨.powerControl (T.byte.getLsbD 2) (T.byte.getLsbD 1) (T.byte.getLsbD 0),
      decode_of_selects rfl hT fun k hk hm => ?_, rfl⟩
    interval_cases k <;> simp [Instr.row, encode] at hm ⊢
  · refine ⟨.shift (if T.byte.getLsbD 3 then .display else .cursor) (if T.byte.getLsbD 2 then .right else .left),
      decode_of_selects rfl hT fun k hk hm => ?_, rfl⟩
    interval_cases k <;> simp [Instr.row, encode] at hm ⊢
  · refine ⟨.setAddress (T.byte.extractLsb' 0 7).toNat,
      decode_of_selects (decide_eq_true (Nat.le_of_lt_succ (T.byte.extractLsb' 0 7).isLt)) hT fun k hk hm => ?_, rfl⟩
    simp only [encode, BitVec.ofNat_toNat]
    interval_cases k <;> simp [Instr.row] at hm ⊢
  · exact ⟨.writeChar T.byte, decode_of_selects rfl hT fun _ _ _ => rfl, rfl⟩

/-- Settles O5: a selected word is read as an instruction of the row, and a decoded word selects its instruction's row
because it is the instruction's word. -/
theorem rowSelectsItsWords : Obligations.RowSelectsItsWords := by
  intro w r hr
  constructor
  · intro hw
    rw [← TWord.bits_ofBits w] at hw ⊢
    exact exists_decode_of_selects hr hw
  · rintro ⟨i, hd, rfl⟩
    obtain ⟨he, hi⟩ := encodeOfDecode w i hd
    simpa only [he] using row_selects_encode hi

/-! The reserved words (R87). -/

/-- A byte is reserved when its flag is 0 and each of the decoder's tests of R85 fails. -/
theorem decodeWord_eq_reserved_iff (rs : Bool) (b : Byte) :
    decodeWord ⟨rs, b⟩ = .reserved b ↔ rs = false ∧ b.getLsbD 7 = false ∧ b ≠ Config.functionSetByte ∧
      ¬ (b.extractLsb' 4 4 = 0b0001 ∧ b.extractLsb' 0 2 = 0) ∧ b.extractLsb' 3 5 ≠ 0b00001 ∧
      b ≠ 0x02 ∧ b ≠ 0x01 := by
  unfold decodeWord
  split_ifs <;> simp_all

theorem getLsbD_seven_eq_false_iff (b : Byte) : b.getLsbD 7 = false ↔ b.toNat < 0x80 := by
  rw [show b.getLsbD 7 = b.msb from rfl, BitVec.msb_eq_false_iff_two_mul_lt]
  omega

/-- Settles O6: read as numbers, the bytes that fail every test of the decoder are the ranges listed, and a well-formed
instruction's word is read as the instruction. -/
theorem reservedWords : Obligations.ReservedWords := by
  refine ⟨fun rs b => ?_, fun i b hi => by simp [decodeWord_encode hi]⟩
  have hb : b.toNat < 2 ^ 8 := b.isLt
  simp only [decodeWord_eq_reserved_iff, getLsbD_seven_eq_false_iff, Config.functionSetByte, ne_eq,
    ← BitVec.toNat_inj, BitVec.extractLsb'_toNat, BitVec.ofNat_eq_ofNat, BitVec.toNat_ofNat,
    Nat.shiftRight_eq_div_pow, List.mem_cons, List.not_mem_nil, or_false]
  refine and_congr_right fun _ => ?_
  omega

end Sys2Proof
end

section
/-! What a call that is not refused or rejected answers, and a reserved word among the words sent (`30_encoding.md`
R88). -/

namespace Sys2Proof.Machine

/-- From SEQ idle and the boot requirement, a call whose arguments are accepted sends the operation's words in order
(R168). -/
theorem callOperation_sends {op : Operation} (hr : op.refusal = none) (hf : op.fault = none) {s : State}
    (hs : s.seq = .idle) (hb : s.booted = true) :
    callOperation op s = .next ((s.recordOperation op).sendAll op.words) := by
  simp only [callOperation, hs, hr, if_true]
  rw [Operation.body_of_no_fault hf (by simpa using hs), sendsOrRefuses, if_pos (.inr (by simpa using hb))]

/-- Settles O41: send of a reserved word is one transmission, and the display forgets everything on receiving it. -/
theorem reservedWordTransmitted : Obligations.ReservedWordTransmitted := by
  intro b s hd hs hb
  have hcall : callOperation (.send false b) s =
      .next (({ s with accepted := s.accepted ++ [.send false b] } : State).send ⟨false, b⟩) :=
    callOperation_sends rfl rfl hs hb
  exact ⟨_, hcall, ⟨by simp, by simp, by simp⟩, by simpa using hs, by simp [Display.receive_reserved hd], by simp,
    by simp⟩

end Sys2Proof.Machine
end

section
/-! What shift_out appends to TRACE, and what it leaves on the lines and in SR.shift (`40_bit_shifter.md` R110 to R115,
`45_downstream_devices.md` R184). -/

namespace Sys2Proof.Machine

theorem shiftOut_eight (b : Byte) (order : BitOrder) (s : State) : shiftOut b 8 order s = .next (s.shiftByte b order) :=
  if_pos rfl

theorem bitIndex_eq_ite (order : BitOrder) (i : Nat) : bitIndex order i = if order = .msbFirst then 7 - i else i := by
  cases order <;> rfl

/-! The events, bit by bit (R112). -/

theorem shiftOutEvents_eq_range (t : Timing) (b : Byte) (order : BitOrder) :
    shiftOutEvents t b order = (List.range 8).flatMap fun i => bitEvents t (bitLevel b (bitIndex order i)) := rfl

/-- Events of which every bit cycle has `n` are `8 n` in a whole shift_out. -/
theorem length_filter_shiftOutEvents {t : Timing} {p : Event → Bool} {n : Nat}
    (hbit : ∀ v, ((bitEvents t v).filter p).length = n) (b : Byte) (order : BitOrder) :
    ((shiftOutEvents t b order).filter p).length = 8 * n := by
  rw [shiftOutEvents_eq_range, List.filter_flatMap, List.length_flatMap]
  simp only [hbit, List.map_const', List.sum_replicate, List.length_range, smul_eq_mul]

theorem shiftOutEvents_length (t : Timing) (b : Byte) (order : BitOrder) : (shiftOutEvents t b order).length = 48 := by
  simp [shiftOutEvents_eq_range, List.length_flatMap, bitEvents]

/-- One data write and one clock pulse for each bit. -/
theorem lineProjection_shiftOutEvents (t : Timing) (b : Byte) (order : BitOrder) :
    lineProjection (shiftOutEvents t b order) = (List.range 8).flatMap fun i =>
      [.write .ser (bitLevel b (bitIndex order i)), .write .sck .H, .write .sck .L] := by
  rw [lineProjection, shiftOutEvents_eq_range, List.filter_flatMap]
  rfl

/-- Settles O7: the events are six for each bit, so each count is eight times that of one bit cycle. -/
theorem shiftOutEventList : Obligations.ShiftOutEventList := by
  intro b order s
  refine ⟨s.shiftByte b order, shiftOutEvents Config.timing b order, shiftOut_eight b order s,
    s.shiftByte_trace b order, ?_, shiftOutEvents_length _ b order, ?_,
    length_filter_shiftOutEvents (n := 3) (fun _ => rfl) b order,
    length_filter_shiftOutEvents (n := 1) (fun _ => rfl) b order,
    length_filter_shiftOutEvents (n := 2) (fun _ => rfl) b order,
    length_filter_shiftOutEvents (n := 3) (fun _ => rfl) b order,
    requestedUs_shiftOutEvents _ b order, shiftOutEvents_writes _ b order⟩
  · simp only [shiftOutEvents_eq_range, bitIndex_eq_ite, bitEvents, bitLevel]
  · simp only [lineProjection_shiftOutEvents, bitIndex_eq_ite, bitLevel]

/-! The lines (R113). -/

section Lines
variable (s : State)

@[simp] theorem State.bitCycle_ser (v : Level) : (s.bitCycle v).ser = .is v := rfl
@[simp] theorem State.bitCycle_lat (v : Level) : (s.bitCycle v).lat = s.lat := rfl
@[simp] theorem State.bitCycle_rs (v : Level) : (s.bitCycle v).rs = s.rs := rfl

/-- The shift steps reach neither LAT, nor RS, nor the output stage. -/
theorem State.shiftSteps_frame (b : Byte) (order : BitOrder) (is : List Nat) :
    (s.shiftSteps b order is).lat = s.lat ∧ (s.shiftSteps b order is).rs = s.rs ∧
      (s.shiftSteps b order is).srOut = s.srOut := by
  induction is generalizing s with
  | nil => exact ⟨rfl, rfl, rfl⟩
  | cons i is ih => exact ih (s.bitCycle (bitLevel b (bitIndex order i)))

/-- The last step of shift_out is step 7. -/
theorem State.shiftByte_eq_bitCycle (b : Byte) (order : BitOrder) :
    s.shiftByte b order =
      (s.shiftSteps b order [0, 1, 2, 3, 4, 5, 6]).bitCycle (bitLevel b (bitIndex order 7)) := rfl

end Lines

/-- Settles O8: the last bit cycle leaves SCK low and SER at its bit; the other lines are outside the shift steps. -/
theorem shiftOutLeavesLines : Obligations.ShiftOutLeavesLines := by
  intro b order s
  obtain ⟨hlat, hrs, -⟩ := s.shiftSteps_frame b order [0, 1, 2, 3, 4, 5, 6, 7]
  refine ⟨_, shiftOut_eight b order s, ?_, ?_, hlat, hrs⟩
  · rw [State.shiftByte_eq_bitCycle, State.bitCycle_sck]
  · rw [State.shiftByte_eq_bitCycle, State.bitCycle_ser, bitLevel, bitIndex_eq_ite]

/-! The flush law (R115, R184). -/

/-- Entered with the clock low, the shift steps push their bits into SR.shift in order. -/
theorem State.shiftSteps_srShift {s : State} (h : s.sck = .is .L) (b : Byte) (order : BitOrder) (is : List Nat) :
    (s.shiftSteps b order is).srShift =
      is.foldl (fun r i => r.push (.is (bitLevel b (bitIndex order i)))) s.srShift := by
  induction is generalizing s with
  | nil => rfl
  | cons i is ih => rw [State.shiftSteps, ih (State.bitCycle_sck s _), State.bitCycle_srShift s _ h, List.foldl_cons]

/-- Eight pushes leave nothing of what SR.shift held: the bit of step 0 has reached QH and that of step 7 is at QA. -/
theorem State.shiftByte_srShift {s : State} (h : s.sck = .is .L) (b : Byte) (order : BitOrder) :
    (s.shiftByte b order).srShift =
      ⟨.is (bitLevel b (bitIndex order 0)), .is (bitLevel b (bitIndex order 1)), .is (bitLevel b (bitIndex order 2)),
        .is (bitLevel b (bitIndex order 3)), .is (bitLevel b (bitIndex order 4)), .is (bitLevel b (bitIndex order 5)),
        .is (bitLevel b (bitIndex order 6)), .is (bitLevel b (bitIndex order 7))⟩ :=
  State.shiftSteps_srShift h b order [0, 1, 2, 3, 4, 5, 6, 7]

theorem bitLevel_reverse (b : Byte) {k : Nat} (hk : k < 8) : bitLevel b.reverse k = bitLevel b (7 - k) := by
  simp only [bitLevel, BitVec.getLsbD_reverse, BitVec.getMsbD, hk, decide_true, Bool.true_and, Nat.reduceSub]

theorem State.shiftByte_srShift_msbFirst {s : State} (h : s.sck = .is .L) (b : Byte) :
    (s.shiftByte b .msbFirst).srShift = SrBits.ofByte b :=
  State.shiftByte_srShift h b .msbFirst

theorem State.shiftByte_srShift_lsbFirst {s : State} (h : s.sck = .is .L) (b : Byte) :
    (s.shiftByte b .lsbFirst).srShift = SrBits.ofByte b.reverse := by
  simp [State.shiftByte_srShift h, SrBits.ofByte, bitLevel_reverse, bitIndex]

@[simp] theorem State.shiftByte_srOut (s : State) (b : Byte) (order : BitOrder) :
    (s.shiftByte b order).srOut = s.srOut :=
  have ⟨_, _, hout⟩ := s.shiftSteps_frame b order [0, 1, 2, 3, 4, 5, 6, 7]
  hout

/-- Settles O13: each order's eight bits replace SR.shift, and no shift step reaches SR.out. -/
theorem shiftOutFlushesShiftStage : Obligations.ShiftOutFlushesShiftStage :=
  fun b s h =>
    ⟨⟨_, shiftOut_eight b .msbFirst s, State.shiftByte_srShift_msbFirst h b, s.shiftByte_srOut b .msbFirst⟩,
      ⟨_, shiftOut_eight b .lsbFirst s, State.shiftByte_srShift_lsbFirst h b, s.shiftByte_srOut b .lsbFirst⟩⟩

end Sys2Proof.Machine
end

section
/-! What latch_pulse leaves on the lines and in the shift register, and its events (`41_latch_controller.md` R120 to
R123, `45_downstream_devices.md` R182). -/

namespace Sys2Proof.Machine

section LatchPulse
variable (s : State)

/-! The pulse returns LAT to low and reaches no other line and not SR.shift (R120, R121). -/

@[simp] theorem State.latchPulse_ser : s.latchPulse.ser = s.ser := rfl
@[simp] theorem State.latchPulse_sck : s.latchPulse.sck = s.sck := rfl
@[simp] theorem State.latchPulse_lat : s.latchPulse.lat = .is .L := rfl
@[simp] theorem State.latchPulse_rs : s.latchPulse.rs = s.rs := rfl
@[simp] theorem State.latchPulse_srShift : s.latchPulse.srShift = s.srShift := rfl

/-- Only the rising half of the pulse moves the output stage: the falling edge commits nothing (R182). -/
theorem State.latchPulse_srOut : s.latchPulse.srOut = s.outAfter .H := rfl

end LatchPulse

/-- A rise of LAT from low commits SR.shift (R182). -/
theorem State.outAfter_high_of_low {s : State} (h : s.lat = .is .L) : s.outAfter .H = s.srShift := by
  simp only [State.outAfter, h]

/-- Entered with LAT low, the pulse commits SR.shift (R121, R182). -/
theorem State.latchPulse_srOut_of_low {s : State} (h : s.lat = .is .L) : s.latchPulse.srOut = s.srShift :=
  s.latchPulse_srOut.trans (State.outAfter_high_of_low h)

/-- The pulse writes LAT high, then low, and nothing else (R123). -/
theorem lineProjection_latchPulseEvents (t : Timing) :
    lineProjection (latchPulseEvents t) = [.write .lat .H, .write .lat .L] := rfl

/-- Each write of the pulse is held for one latch time (R123). -/
theorem waits_latchPulseEvents (t : Timing) :
    (latchPulseEvents t).filter (fun e => !e.isWrite) = [.wait (.us t.tLatchUs), .wait (.us t.tLatchUs)] := rfl

/-- Settles O14: the events appended are `latchPulseEvents`, whose writes and waits are listed. -/
theorem latchPulseIsHighThenLow : Obligations.LatchPulseIsHighThenLow := by
  intro s
  refine ⟨latchPulseEvents Config.timing, s.latchPulse_trace, rfl, rfl, ?_, ?_,
    requestedUs_latchPulseEvents Config.timing, s.latchPulse_lat⟩
  · rw [lineProjection_latchPulseEvents]
    rfl
  · rw [waits_latchPulseEvents]
    rfl

/-- Settles O15: the rising edge commits SR.shift, and the pulse reaches no line but LAT. -/
theorem latchPulseCommits : Obligations.LatchPulseCommits :=
  fun s h =>
    ⟨State.latchPulse_srOut_of_low h, s.latchPulse_lat, s.latchPulse_srShift, s.latchPulse_ser, s.latchPulse_sck,
      s.latchPulse_rs⟩

end Sys2Proof.Machine
end

section
/-! One send: its event list, in counts, positions and requested time, and what it leaves (`42_command_channel.md` R130
to R137, `70_reset_and_hazards.md` R237, R246). -/

namespace Sys2Proof.Machine

/-! The four parts of the event list (R130, R133): RS, 48 events of shift_out, 4 of the latch pulse, the tail. -/

section SendEvents
variable (v : LatchVariant) (t : Timing) (T : TWord)

theorem sendEvents_length : (sendEvents v t T).length = 53 + (tailEvents v t).length := by
  simp only [sendEvents, List.length_cons, List.length_append, shiftOutEvents_length,
    show (latchPulseEvents t).length = 4 from rfl]
  omega

/-- RS, three writes for each bit and two for the latch pulse come before the tail. -/
theorem lineProjection_sendEvents_length :
    (lineProjection (sendEvents v t T)).length = 27 + (lineProjection (tailEvents v t)).length := by
  have hshift : (lineProjection (shiftOutEvents t T.byte .msbFirst)).length = 24 :=
    length_filter_shiftOutEvents (n := 3) (fun _ => rfl) T.byte .msbFirst
  have hrs : lineProjection [.write .rs (Level.ofBool T.rs)] = [.write .rs (Level.ofBool T.rs)] := rfl
  rw [sendEvents, ← List.singleton_append]
  simp only [lineProjection_append, List.length_append, hshift, hrs, lineProjection_latchPulseEvents,
    List.length_cons, List.length_nil]
  omega

theorem requestedUs_sendEvents :
    requestedUs (sendEvents v t T) = 24 * t.tBitUs + 2 * t.tLatchUs + requestedUs (tailEvents v t) := by
  simp only [sendEvents, requestedUs_cons, requestedUs_append, requestedUs_shiftOutEvents,
    requestedUs_latchPulseEvents, Event.requestedUs, Nat.zero_add]

theorem sendEvents_getElem?_shiftOut {k : Nat} (hk : k < 48) :
    (sendEvents v t T)[1 + k]? = (shiftOutEvents t T.byte .msbFirst)[k]? := by
  rw [sendEvents, Nat.add_comm, List.getElem?_cons_succ, List.append_assoc,
    List.getElem?_append_left (by rwa [shiftOutEvents_length])]

/-- What follows shift_out starts at index 49. -/
theorem sendEvents_getElem?_afterShiftOut (k : Nat) :
    (sendEvents v t T)[49 + k]? = (latchPulseEvents t ++ tailEvents v t)[k]? := by
  rw [sendEvents, Nat.add_right_comm 48 1 k, List.getElem?_cons_succ, List.append_assoc,
    List.getElem?_append_right (by rw [shiftOutEvents_length]; omega), shiftOutEvents_length, Nat.add_sub_cancel_left]

end SendEvents

/-- In a concatenation of lists of one length `n`, element `j` of part `i` lies at `n i + j`. -/
theorem getElem?_flatMap_of_length {α β : Type} {f : α → List β} {n : Nat} (hf : ∀ a, (f a).length = n) {j : Nat}
    (hj : j < n) (l : List α) (i : Nat) : (l.flatMap f)[n * i + j]? = l[i]?.bind fun a => (f a)[j]? := by
  induction l generalizing i with
  | nil => simp
  | cons a l ih =>
    cases i with
    | zero => simp [List.getElem?_append_left, hf, hj]
    | succ i =>
      have hindex : n * (i + 1) + j - n = n * i + j := by rw [Nat.mul_succ]; omega
      rw [List.flatMap_cons, List.getElem?_append_right (by rw [hf, Nat.mul_succ]; omega), hf, hindex, ih,
        List.getElem?_cons_succ]

/-- Event `j` of bit `i` lies at `6 i + j` in shift_out (R112). -/
theorem shiftOutEvents_getElem? (t : Timing) (b : Byte) (order : BitOrder) {i j : Nat} (hi : i < 8) (hj : j < 6) :
    (shiftOutEvents t b order)[6 * i + j]? = (bitEvents t (bitLevel b (bitIndex order i)))[j]? := by
  rw [shiftOutEvents_eq_range, getElem?_flatMap_of_length (n := 6) (fun _ => rfl) hj,
    List.getElem?_range hi, Option.bind_some]

/-- Event `j` of bit `i`, which is bit `7 - i` of the byte, lies at `1 + 6 i + j` in a send (R133). -/
theorem sendEvents_getElem?_bit (v : LatchVariant) (t : Timing) (T : TWord) {i j : Nat} (hi : i < 8) (hj : j < 6) :
    (sendEvents v t T)[1 + (6 * i + j)]? = (bitEvents t (bitLevel T.byte (7 - i)))[j]? := by
  rw [sendEvents_getElem?_shiftOut v t T (by omega), shiftOutEvents_getElem? t T.byte .msbFirst hi hj]
  rfl

/-- The three writes of bit `i`: SER at bit `7 - i` of the byte, then the clock pulse (R133). -/
theorem sendEvents_bit_writes (v : LatchVariant) (t : Timing) (T : TWord) {i : Nat} (hi : i < 8) :
    (sendEvents v t T)[1 + 6 * i]? = some (.write .ser (bitLevel T.byte (7 - i))) ∧
      (sendEvents v t T)[3 + 6 * i]? = some (.write .sck .H) ∧
      (sendEvents v t T)[5 + 6 * i]? = some (.write .sck .L) := by
  have event {j : Nat} (hj : j < 6) := sendEvents_getElem?_bit v t T hi hj
  refine ⟨event (j := 0) (by decide), ?_, ?_⟩
  · rw [show 3 + 6 * i = 1 + (6 * i + 2) by omega, event (by decide)]
    rfl
  · rw [show 5 + 6 * i = 1 + (6 * i + 4) by omega, event (by decide)]
    rfl

/-- Settles O16: counts and time are those of the four parts, and each event's position is its part's offset and its
position in the part. -/
theorem sendEventCounts : Obligations.SendEventCounts := by
  intro t T
  have after (v : LatchVariant) (k : Nat) := sendEvents_getElem?_afterShiftOut v t T k
  refine ⟨⟨sendEvents_length .single t T, lineProjection_sendEvents_length .single t T,
      requestedUs_sendEvents .single t T⟩,
    ⟨sendEvents_length .double t T, lineProjection_sendEvents_length .double t T, ?_⟩,
    fun v => ⟨rfl, fun i hi => sendEvents_bit_writes v t T hi, after v 0, after v 2⟩,
    after .single 4, after .double 4, after .double 6⟩
  rw [requestedUs_sendEvents, tailEvents, requestedUs_latchPulseEvents]
  omega

/-- No event of latch_pulse writes RS (R123). -/
theorem latchPulseEvents_not_writes_rs (t : Timing) : ∀ e ∈ latchPulseEvents t, e.writes .rs = false := by
  simp [latchPulseEvents, Event.writes]

/-- Neither tail writes RS (R130). -/
theorem tailEvents_not_writes_rs (v : LatchVariant) (t : Timing) : ∀ e ∈ tailEvents v t, e.writes .rs = false := by
  cases v with
  | single => simp [tailEvents, Event.writes]
  | double => exact latchPulseEvents_not_writes_rs t

/-- Settles O17: after the write of RS come shift_out, the latch pulse and the tail, none of which writes RS. -/
theorem registerSelectWrittenOnceFirst : Obligations.RegisterSelectWrittenOnceFirst := by
  intro v t T
  refine ⟨_, rfl, fun e he => ?_⟩
  rcases List.mem_append.mp he with he | htail
  · rcases List.mem_append.mp he with hshift | hlatch
    · exact (shiftOutEvents_writes t T.byte .msbFirst e hshift).2
    · exact latchPulseEvents_not_writes_rs t e hlatch
  · exact tailEvents_not_writes_rs v t e htail

/-! The state after a send (R130, R134, R137). -/

/-- From SEQ idle and the boot requirement, a transmission is the send (R25, R232). -/
theorem transmit_eq_send {s : State} (hs : s.seq = .idle) (hb : s.booted = true) (T : TWord) :
    transmit T s = .next (s.send T) :=
  (transmit_next_iff T s _).mpr ⟨hs, hb, rfl⟩

/-- A send reaches nothing of the host's side. -/
theorem State.send_hostSideKept (s : State) (T : TWord) : HostSideKept s (s.send T) where
  seq := s.send_seq T
  job := s.send_job T
  port := s.send_port T
  accepted := s.send_accepted T
  rejected := s.send_rejected T
  faults := s.send_faults T

/-- Settles O18: the events appended are `sendEvents` of the variant, taken apart. -/
theorem sendTransmitsTheWord : Obligations.SendTransmitsTheWord := by
  intro T s hs hb
  refine ⟨s.send T, transmit_eq_send hs hb T, s.send_words T, ?_, (s.send_seq T).trans hs, s.send_hostSideKept T⟩
  rw [State.send_trace, sendEvents, List.append_cons]
  simp only [List.append_assoc]
  rfl

/-- Settles O19: the wires are those of `State.send_wires`. -/
theorem sendLeavesTheWires : Obligations.SendLeavesTheWires := by
  intro T s hs hb
  obtain ⟨hrs, hser, hsck, hlat, hshift, hout⟩ := s.send_wires T hb
  exact ⟨s.send T, transmit_eq_send hs hb T, hrs, hser, hsck, hlat, (s.send_seq T).trans hs, hshift, hout,
    s.send_words T, s.send_delivered T⟩

end Sys2Proof.Machine
end

section
/-! The words of the instructions as the spec writes them, as numbers (`43_display_instructions.md` R140 to R147). -/

namespace Sys2Proof

/-- The byte of POWER_CONTROL (R144). -/
theorem encode_powerControl (d c b : Bool) : encode (.powerControl d c b) =
    ⟨false, BitVec.ofNat 8 (0x08 ||| (d.toNat <<< 2) ||| (c.toNat <<< 1) ||| b.toNat)⟩ := by
  cases d <;> cases c <;> cases b <;> rfl

/-- The three flags of POWER_CONTROL occupy bits of their own, so the byte is also a sum. -/
theorem powerControl_or_eq_add (d c b : Bool) :
    (0x08 ||| (d.toNat <<< 2) ||| (c.toNat <<< 1) ||| b.toNat) = 0x08 + 4 * d.toNat + 2 * c.toNat + b.toNat := by
  cases d <;> cases c <;> cases b <;> rfl

/-- The byte of SHIFT (R145). -/
theorem encode_shift (t : ShiftTarget) (r : Direction) : encode (.shift t r) =
    ⟨false, BitVec.ofNat 8 (0x10 ||| ((if t = .display then 1 else 0) <<< 3) |||
      ((if r = .right then 1 else 0) <<< 2))⟩ := by
  cases t <;> cases r <;> rfl

/-- The two operands of SHIFT occupy bits of their own, so the byte is also a sum. -/
theorem shift_or_eq_add (t : ShiftTarget) (r : Direction) :
    (0x10 ||| ((if t = .display then 1 else 0) <<< 3) ||| ((if r = .right then 1 else 0) <<< 2)) =
      0x10 + 8 * (if t = .display then 1 else 0) + 4 * (if r = .right then 1 else 0) := by
  cases t <;> cases r <;> rfl

/-- The byte of SET_ADDRESS (R146). -/
theorem encode_setAddress (addr : Nat) :
    encode (.setAddress addr) = ⟨false, BitVec.ofNat 8 (0x80 ||| addr)⟩ := by
  rw [BitVec.ofNat_or]
  rfl

/-- An address in range leaves bit 7 to the instruction, so the byte is also a sum. -/
theorem setAddress_or_eq_add {addr : Nat} (h : addr ≤ 0x7F) : (0x80 ||| addr) = 0x80 + addr :=
  (Nat.two_pow_add_eq_or_of_lt (i := 7) (Nat.lt_succ_of_le h) 1).symm

/-- Only a SET_ADDRESS can be outside its domain, by an address above 0x7F (R140). -/
theorem Instr.exists_of_not_wellFormed {i : Instr} (hi : ¬ i.wellFormed = true) :
    ∃ addr, addr > Config.maxAddr ∧ i = .setAddress addr := by
  cases i with
  | setAddress addr => exact ⟨addr, by simpa [Instr.wellFormed] using hi, rfl⟩
  | _ => exact absurd rfl hi

/-- Settles O4: the flags and operands run through their values, and an address in range keeps the byte below 256. -/
theorem encodedBytes : Obligations.EncodedBytes := by
  refine ⟨⟨rfl, rfl⟩, ⟨rfl, rfl⟩, ⟨rfl, rfl⟩, fun d c b => ?_, fun t r => ?_, fun addr h => ?_, fun ch => rfl⟩
  · cases d <;> cases c <;> cases b <;> exact ⟨rfl, rfl⟩
  · cases t <;> cases r <;> exact ⟨rfl, rfl⟩
  · refine ⟨rfl, ?_⟩
    rw [encode_setAddress, BitVec.toNat_ofNat, setAddress_or_eq_add h]
    omega

end Sys2Proof
end

section
/-! What exec of an instruction answers, said once for all seven: the send of its word, or the rejection of an address
out of range (`43_display_instructions.md` R141 to R150). -/

namespace Sys2Proof.Machine

/-- From SEQ idle and the boot requirement, a well-formed instruction is the send of its word (R149). -/
theorem exec_eq_send {i : Instr} (hi : i.wellFormed = true) {s : State} (hs : s.seq = .idle)
    (hb : s.booted = true) : exec i s = .next (s.send (encode i)) := by
  rw [exec_wellFormed hi, transmit_eq_send hs hb]

theorem State.send_sent (s : State) (T : TWord) : Sent T s (s.send T) :=
  ⟨s.send_words T, s.send_trace T, s.send_delivered T⟩

/-- From SEQ idle, SET_ADDRESS checks its argument before it sends (R146, R202). -/
theorem exec_setAddress (addr : Nat) {s : State} (hs : s.seq = .idle) : exec (.setAddress addr) s =
    if addr > Config.maxAddr then .next (s.raise (.addressOutOfRange addr))
    else transmit (encode (.setAddress addr)) s :=
  if_pos hs

/-- An instruction starts only from SEQ idle (R25). -/
theorem exec_in_progress (i : Instr) {s : State} (hs : s.seq ≠ .idle) : exec i s = .refused .operationInProgress := by
  cases i <;> exact if_neg hs

/-- A well-formed instruction that answers a next state has sent its word. -/
theorem eq_send_of_exec {i : Instr} (hi : i.wellFormed = true) {s t : State} (h : exec i s = .next t) :
    t = s.send (encode i) := by
  rw [exec_wellFormed hi, transmit_next_iff] at h
  exact h.2.2

/-- A SET_ADDRESS out of range that answers a next state has been rejected. -/
theorem eq_raise_of_exec {addr : Nat} (ha : addr > Config.maxAddr) {s t : State}
    (h : exec (.setAddress addr) s = .next t) : t = s.raise (.addressOutOfRange addr) := by
  by_cases hs : s.seq = .idle
  · rw [exec_setAddress addr hs, if_pos ha] at h
    exact (Host.Outcome.next.inj h).symm
  · rw [exec_in_progress _ hs] at h
    cases h

/-- Settles O20: `exec_eq_send`, with what a send changes and what it leaves. -/
theorem issueSendsTheEncodedWord : Obligations.IssueSendsTheEncodedWord :=
  fun i s hi hs hb => ⟨s.send (encode i), exec_eq_send hi hs hb, transmit_eq_send hs hb _, s.send_sent _,
    s.send_hostSideKept _⟩

/-- Settles O21: each meaning is the transmission of the instruction's word, SET_ADDRESS after its check. -/
theorem instructionsSendTheirBytes : Obligations.InstructionsSendTheirBytes := by
  intro s hs
  refine ⟨exec_wellFormed rfl s, exec_wellFormed rfl s, exec_wellFormed rfl s, fun d c b => ?_, fun t r => ?_,
    fun addr => ?_, fun ch => exec_wellFormed rfl s⟩
  · rw [exec_wellFormed rfl, encode_powerControl]
  · rw [exec_wellFormed rfl, encode_shift]
  · rw [exec_setAddress addr hs, encode_setAddress]
    rfl

/-- What an answered instruction appends to the histories is the same from every state: its word and the word's events,
or the fault that its address raises (R150). -/
theorem exec_appends (i : Instr) : ∃ (ws : List TWord) (es : List Event) (fs : List HostFault),
    ∀ {s t : State}, exec i s = .next t →
      t.words = s.words ++ ws ∧ t.trace = s.trace ++ es ∧ t.faults = s.faults ++ fs := by
  by_cases hi : i.wellFormed = true
  · refine ⟨[encode i], sendEvents Config.latchVariant Config.timing (encode i), [], fun h => ?_⟩
    rw [eq_send_of_exec hi h]
    simp
  · obtain ⟨addr, ha, rfl⟩ := Instr.exists_of_not_wellFormed hi
    refine ⟨[], [], [.addressOutOfRange addr], fun h => ?_⟩
    rw [eq_raise_of_exec ha h]
    simp

/-- Settles O45: `exec_appends` at both states. -/
theorem instructionsAreStateless : Obligations.InstructionsAreStateless := by
  intro i s s' t t' h h'
  obtain ⟨ws, es, fs, appends⟩ := exec_appends i
  exact ⟨ws, es, fs, appends h, appends h'⟩

end Sys2Proof.Machine
end

section
/-! What each instruction's word does to the display that receives it (`45_downstream_devices.md` R190,
`70_reset_and_hazards.md` R234; log 12, log 26). -/

namespace Sys2Proof.Machine

/-! The progress of the initialization (R160; log 26). -/

/-- Before the initialization is complete, an instruction that is none of its four makes it start over. -/
theorem InitProgress.after_of_notMem {p : InitProgress} (hp : p ≠ .done) {i : Instr} (hi : i ∉ initializeInstrs) :
    p.after i = .notStarted := by
  unfold InitProgress.after
  split <;> simp_all [initializeInstrs]

/-- FUNCTION_SET begins the initialization from wherever it stands. -/
theorem InitProgress.after_functionSet {p : InitProgress} (hp : p ≠ .done) : p.after .functionSet = .functionSet := by
  cases p with
  | done => exact absurd rfl hp
  | _ => rfl

/-- Nothing but FUNCTION_SET begins the initialization. -/
theorem InitProgress.after_ne_functionSet (p : InitProgress) {i : Instr} (hi : i ≠ .functionSet) :
    p.after i ≠ .functionSet := by
  intro h
  rcases p.after_cases i with hp | ⟨-, hp⟩ | hp | ⟨-, -, hp, -⟩
  · exact nomatch h.symm.trans hp
  · exact hi hp
  · exact nomatch h.symm.trans hp
  · exact hp h

/-- CLEAR carries the initialization on after FUNCTION_SET only. -/
theorem InitProgress.after_clear {p : InitProgress} (hp : p ≠ .done ∧ p ≠ .functionSet) :
    p.after .clear = .notStarted := by
  obtain ⟨hd, hf⟩ := hp
  cases p with
  | done => exact absurd rfl hd
  | functionSet => exact absurd rfl hf
  | _ => rfl

/-- HOME carries the initialization on after CLEAR only. -/
theorem InitProgress.after_home {p : InitProgress} (hp : p ≠ .done ∧ p ≠ .clear) : p.after .home = .notStarted := by
  obtain ⟨hd, hc⟩ := hp
  cases p with
  | done => exact absurd rfl hd
  | clear => exact absurd rfl hc
  | _ => rfl

/-- POWER_CONTROL leaves the initialization complete when it is so already, or when it is its last word. -/
theorem InitProgress.after_powerControl (p : InitProgress) (d c b : Bool) : p.after (.powerControl d c b) =
    if p = .done ∨ (p = .home ∧ d = true ∧ c = false ∧ b = false) then .done else .notStarted := by
  cases p with
  | home => cases d <;> cases c <;> cases b <;> rfl
  | _ => simp [InitProgress.after]

/-! The display on receiving the word of a well-formed instruction. -/

section Receive
variable {d : Display} {i : Instr} (hi : i.wellFormed = true)
include hi

/-- On a configured display the instruction has its effect. -/
theorem Display.receive_encode_done (hd : d.progress = .done) : d.receive (encode i) = d.act i :=
  Display.receive_done hd (decodeWord_encode hi)

/-- An instruction that does not carry the initialization on leaves nothing known. -/
theorem Display.receive_encode_notStarted (hp : d.progress.after i = .notStarted) :
    d.receive (encode i) = Display.unknown :=
  Display.receive_notStarted (decodeWord_encode hi) hp

/-- On a display that is not configured, an instruction outside the initialization leaves nothing known. -/
theorem Display.receive_encode_unconfigured (hd : d.progress ≠ .done) (hm : i ∉ initializeInstrs) :
    d.receive (encode i) = Display.unknown :=
  Display.receive_encode_notStarted hi (InitProgress.after_of_notMem hd hm)

/-- An instruction but FUNCTION_SET that carries the initialization on, or comes after it, has its effect. -/
theorem Display.receive_encode_carries (hn : d.progress.after i ≠ .notStarted) (hf : i ≠ .functionSet) :
    d.receive (encode i) = { d.act i with progress := d.progress.after i } :=
  Display.receive_carries (decodeWord_encode hi) hn (d.progress.after_ne_functionSet hf)

end Receive

/-! A character stored (R147, R190). -/

/-- A stored character reaches AC and DDRAM only. -/
theorem Display.storeChar_frame (d : Display) (ch : Byte) :
    DisplayModeKept d (d.storeChar ch) ∧ (d.storeChar ch).shiftMoves = d.shiftMoves := by
  unfold Display.storeChar
  split
  · exact ⟨⟨rfl, rfl, rfl, rfl, rfl, rfl⟩, rfl⟩
  · split <;> exact ⟨⟨rfl, rfl, rfl, rfl, rfl, rfl⟩, rfl⟩

/-- At a cell the character is stored at AC, and AC moves on. -/
theorem Display.storeChar_of_cell {d : Display} {a : DdramAddr} (ha : d.ac = .is a) (hc : isCell a = true) (ch : Byte) :
    d.storeChar ch = { d with ac := acAfter a, ddram := Memory.write d.ddram a.toNat ch } := by
  simp only [Display.storeChar, ha, hc, if_true]

/-- With AC unknown or at no cell, AC and DDRAM become unknown. -/
theorem Display.storeChar_of_no_cell {d : Display} (h : d.ac = .unknown ∨ ∃ a, d.ac = .is a ∧ ¬ isCell a = true)
    (ch : Byte) : d.storeChar ch = { d with ac := .unknown, ddram := Memory.unknown } := by
  rcases h with ha | ⟨a, ha, hc⟩
  · simp only [Display.storeChar, ha]
  · simp only [Display.storeChar, ha, if_neg hc]

/-- From a cell AC moves to the next one, but not from the last column of a row (R51). -/
theorem acAfter_of_cell {a : DdramAddr} (hc : isCell a = true) :
    acAfter a = if a.toNat = 0x0F ∨ a.toNat = 0x4F then .unknown else .is (a + 1) := by
  have hnext : isCell (a + 1) = true ↔ ¬ (a.toNat = 0x0F ∨ a.toNat = 0x4F) := by
    rw [isCell_iff] at hc ⊢
    rw [BitVec.toNat_add, show BitVec.toNat (1 : DdramAddr) = 1 from rfl]
    omega
  simp only [acAfter, hnext, ite_not]

end Sys2Proof.Machine
end

section
/-! The seven instructions: the word each sends, and its effect on the display (`43_display_instructions.md` R141 to
R147). -/

namespace Sys2Proof.Machine

/-- From SEQ idle and the boot requirement, a well-formed instruction sends its word, which the wires then hold and the
display has received, and leaves the host's side. -/
theorem exec_sends {i : Instr} (hi : i.wellFormed = true) {T : TWord} (hT : encode i = T) {s : State}
    (hs : s.seq = .idle) (hb : s.booted = true) : ∃ t, exec i s = .next t ∧ Sent T s t ∧ HostSideKept s t ∧
      WiresHold T t ∧ t.display = s.display.receive (encode i) :=
  hT ▸ ⟨s.send (encode i), exec_eq_send hi hs hb, s.send_sent _, s.send_hostSideKept _, s.send_wires _ hb,
    s.send_display _⟩

/-- Settles O22: before the initialization is complete, FUNCTION_SET begins it. -/
theorem functionSetSends : Obligations.FunctionSetSends := by
  intro s hs hb
  obtain ⟨t, hexec, hsent, hhost, -, hdisp⟩ := exec_sends (i := .functionSet) rfl rfl hs hb
  refine ⟨t, hexec, hsent, hhost, fun hd => ?_, fun hd => ?_⟩
  · rw [hdisp, Display.receive_encode_done rfl hd]
    rfl
  · rw [hdisp, Display.receive_begins (decodeWord_encode rfl) (InitProgress.after_functionSet hd)]
    rfl

/-- CLEAR and HOME send their word and leave AC, the shift state and DDRAM unknown on every display. The registers of
FUNCTION_SET and POWER_CONTROL are kept where the word carries the initialization on or comes after it; elsewhere
nothing is known of the display. -/
theorem clearOrHome_sends {i : Instr} (hi : i = .clear ∨ i = .home) {s : State} (hs : s.seq = .idle)
    (hb : s.booted = true) : ∃ t, exec i s = .next t ∧ Sent (encode i) s t ∧ HostSideKept s t ∧
      (t.display.ac = .unknown ∧ t.display.shiftMoves = [] ∧ DdramUnknown t.display) ∧
      (∀ {p}, s.display.progress = p → p.after i ≠ .notStarted →
        DisplayModeKept s.display t.display ∧ t.display.progress = p.after i) ∧
      (s.display.progress.after i = .notStarted → t.display = Display.unknown) := by
  have hw : i.wellFormed = true := by rcases hi with rfl | rfl <;> rfl
  have hf : i ≠ .functionSet := by rcases hi with rfl | rfl <;> exact nofun
  have hact : s.display.act i = s.display.clearOrHome := by rcases hi with rfl | rfl <;> rfl
  obtain ⟨t, hexec, hsent, hhost, -, hdisp⟩ := exec_sends hw rfl hs hb
  refine ⟨t, hexec, hsent, hhost, ?_⟩
  by_cases hp : s.display.progress.after i = .notStarted
  · rw [hdisp, Display.receive_encode_notStarted hw hp]
    exact ⟨⟨rfl, rfl, fun _ => rfl⟩, fun e h => absurd (e ▸ hp) h, fun _ => rfl⟩
  · rw [hdisp, Display.receive_encode_carries hw hp hf, hact]
    exact ⟨⟨rfl, rfl, fun _ => rfl⟩, fun e _ => ⟨⟨rfl, rfl, rfl, rfl, rfl, rfl⟩, e ▸ rfl⟩, fun h => absurd h hp⟩

/-- Settles O23: CLEAR carries the initialization on after FUNCTION_SET. -/
theorem clearSends : Obligations.ClearSends := by
  intro s hs hb
  obtain ⟨t, hexec, hsent, hhost, ⟨hac, hmoves, hddram⟩, hkept, hlost⟩ := clearOrHome_sends (.inl rfl) hs hb
  exact ⟨t, hexec, hsent, hhost, hac, hmoves, hddram, fun hp => hkept hp nofun, fun hp => hkept hp nofun,
    fun hp => hlost (InitProgress.after_clear hp)⟩

/-- Settles O24: HOME carries the initialization on after CLEAR. -/
theorem homeSends : Obligations.HomeSends := by
  intro s hs hb
  obtain ⟨t, hexec, hsent, hhost, ⟨hac, hmoves, hddram⟩, hkept, hlost⟩ := clearOrHome_sends (.inr rfl) hs hb
  exact ⟨t, hexec, hsent, hhost, hac, hmoves, hddram, fun hp => hkept hp nofun, fun hp => hkept hp nofun,
    fun hp => hlost (InitProgress.after_home hp)⟩

/-- Settles O25: POWER_CONTROL is the last word of the initialization, and has its effect once that is complete. -/
theorem powerControlSends : Obligations.PowerControlSends := by
  intro d c b s hs hb
  obtain ⟨t, hexec, hsent, hhost, -, hdisp⟩ := exec_sends (i := .powerControl d c b) rfl
    (by rw [encode_powerControl, powerControl_or_eq_add]) hs hb
  have hafter := InitProgress.after_powerControl s.display.progress d c b
  refine ⟨t, hexec, hsent, hhost, fun hp => ?_, fun hp => ?_⟩
  · rw [if_pos hp] at hafter
    rw [hdisp, Display.receive_encode_carries (i := .powerControl d c b) rfl (by simp [hafter]) nofun, hafter]
    rfl
  · rw [if_neg (not_or.mpr hp)] at hafter
    rw [hdisp, Display.receive_encode_notStarted rfl hafter]

/-- Settles O26: SHIFT is no word of the initialization. -/
theorem shiftSends : Obligations.ShiftSends := by
  intro target direction s hs hb
  obtain ⟨t, hexec, hsent, hhost, -, hdisp⟩ := exec_sends (i := .shift target direction) rfl
    (by rw [encode_shift, shift_or_eq_add]) hs hb
  refine ⟨t, hexec, hsent, hhost, ?_⟩
  by_cases hd : s.display.progress = .done
  · rw [hdisp, Display.receive_encode_done rfl hd]
    exact ⟨rfl, fun _ => rfl, fun _ => ⟨⟨rfl, rfl, rfl, rfl, rfl, rfl⟩, hd, rfl⟩, fun h => absurd hd h⟩
  · rw [hdisp, Display.receive_encode_unconfigured rfl hd (by simp [initializeInstrs])]
    exact ⟨rfl, fun _ => rfl, fun h => absurd h hd, fun _ => rfl⟩

/-- Settles O27: SET_ADDRESS is no word of the initialization. -/
theorem setAddressSends : Obligations.SetAddressSends := by
  intro addr s ha hs hb
  have hi : (Instr.setAddress addr).wellFormed = true := decide_eq_true ha
  obtain ⟨t, hexec, hsent, hhost, -, hdisp⟩ := exec_sends hi
    (by rw [encode_setAddress, setAddress_or_eq_add ha]) hs hb
  refine ⟨t, hexec, hsent, hhost, fun hd => ?_, fun hd => ?_⟩
  · rw [hdisp, Display.receive_encode_done hi hd]
    rfl
  · rw [hdisp, Display.receive_encode_unconfigured hi hd (by simp [initializeInstrs])]

/-- Settles O28: WRITE_CHAR is no word of the initialization, and on a configured display it stores its character. -/
theorem writeCharSends : Obligations.WriteCharSends := by
  intro ch s hs hb
  obtain ⟨t, hexec, hsent, hhost, hwires, hdisp⟩ := exec_sends (i := .writeChar ch) rfl rfl hs hb
  refine ⟨t, hexec, hsent, hwires.rs, hhost, fun hd => ?_, fun hd => ?_⟩
  · have hstore : t.display = s.display.storeChar ch := hdisp.trans (Display.receive_encode_done rfl hd)
    obtain ⟨hmode, hmoves⟩ := s.display.storeChar_frame ch
    rw [hstore]
    refine ⟨hmode, (s.display.storeChar_progress ch).trans hd, hmoves, fun a ha hc => ?_, fun h => ?_⟩
    · rw [← isCell_iff] at hc
      rw [Display.storeChar_of_cell ha hc]
      exact ⟨Memory.read_write _ _ _, acAfter_of_cell hc⟩
    · simp only [← isCell_iff] at h
      rw [Display.storeChar_of_no_cell h]
      exact ⟨rfl, fun _ => rfl⟩
  · rw [hdisp, Display.receive_encode_unconfigured rfl hd (by simp [initializeInstrs])]

end Sys2Proof.Machine
end

section
/-! The operations that run one instruction (`44_operations.md` R161 to R166, `30_encoding.md` R88), and a word waiting
in the port (R170; log 4, log 19). -/

namespace Sys2Proof.Machine

/-- From SEQ idle, an accepted operation whose body is one instruction is exec of that instruction, once it has been
recorded. -/
theorem callOperation_eq_exec {op : Operation} {i : Instr} (hr : op.refusal = none) (hf : op.fault = none)
    (hi : ∀ s, op.body s = exec i s) {s : State} (hs : s.seq = .idle) :
    callOperation op s = exec i { s with accepted := s.accepted ++ [op] } := by
  simp only [callOperation, if_pos hs, hr, hi, s.recordOperation_of_none hf]

/-- From SEQ idle, an operation whose arguments raise a fault is recorded and the fault delivered (R200, R207). -/
theorem callOperation_rejects {op : Operation} {f : HostFault} (hr : op.refusal = none) (hf : op.fault = some f)
    {s : State} (hs : s.seq = .idle) : callOperation op s = .next ((s.recordOperation op).raise f) := by
  simp only [callOperation, hs, hr, if_true]
  exact Operation.body_of_fault hf (by simpa using hs)

/-- A send of an instruction's word runs the instruction (R88). -/
theorem opSend_of_decodeWord {T : TWord} {i : Instr} (h : decodeWord T = .instr i) (s : State) :
    opSend T.rs T.byte s = exec i s := by
  simp only [opSend, h]

theorem fault_setAddress {addr : Nat} (h : addr ≤ Config.maxAddr) : (Operation.setAddress addr).fault = none :=
  if_neg (Nat.not_lt.mpr h)

/-- An accepted operation whose body is one instruction sends that instruction's word and nothing else, and the block is
idle after it. -/
theorem callOperation_sends_word {op : Operation} {i : Instr} (hi : i.wellFormed = true) (hr : op.refusal = none)
    (hf : op.fault = none) (hbody : ∀ s, op.body s = exec i s) {T : TWord} (hT : encode i = T) {s : State}
    (hs : s.seq = .idle) (hb : s.booted = true) :
    ∃ t, callOperation op s = .next t ∧ Sent T s t ∧ t.seq = .idle ∧ t.job = s.job ∧ t.port = s.port ∧
      t.accepted = s.accepted ++ [op] ∧ t.rejected = s.rejected ∧ t.faults = s.faults := by
  obtain ⟨t, hexec, ⟨hwords, htrace, hdelivered⟩, ⟨hseq, hjob, hport, haccepted, hrejected, hfaults⟩, -, -⟩ :=
    exec_sends (s := { s with accepted := s.accepted ++ [op] }) hi hT hs hb
  exact ⟨t, (callOperation_eq_exec hr hf hbody hs).trans hexec, ⟨hwords, htrace, hdelivered⟩, hseq.trans hs, hjob,
    hport, haccepted, hrejected, hfaults⟩

/-- Settles O37: each operation runs the instruction of its name, whose word is a formula in its arguments. -/
theorem oneWordOperations : Obligations.OneWordOperations := by
  rintro s hs hb op b (⟨rfl, rfl⟩ | ⟨rfl, rfl⟩ | ⟨x, y, z, rfl, rfl⟩ | ⟨x, y, rfl, rfl⟩ | ⟨addr, ha, rfl, rfl⟩)
  · exact callOperation_sends_word (i := .clear) rfl rfl rfl (fun _ => rfl) rfl hs hb
  · exact callOperation_sends_word (i := .home) rfl rfl rfl (fun _ => rfl) rfl hs hb
  · exact callOperation_sends_word (i := .powerControl x y z) rfl rfl rfl (fun _ => rfl)
      (by rw [encode_powerControl, powerControl_or_eq_add, one_mul]) hs hb
  · exact callOperation_sends_word (i := .shift x y) rfl rfl rfl (fun _ => rfl)
      (by rw [encode_shift, shift_or_eq_add]) hs hb
  · exact callOperation_sends_word (i := .setAddress addr) (decide_eq_true ha) rfl (fault_setAddress ha) (fun _ => rfl)
      (encode_setAddress addr) hs hb

/-- At a position of the grid, set_cursor is SET_ADDRESS of the position's address (R166). -/
theorem callOperation_setCursor_inside {col row : Nat} (hc : col ≤ 15) (hr : row ≤ 1) {s : State}
    (hs : s.seq = .idle) : callOperation (.setCursor col row) s =
      exec (.setAddress (0x40 * row + col)) { s with accepted := s.accepted ++ [.setCursor col row] } := by
  have htranslate := translateCursor_inside hc hr
  have hfault : (Operation.setCursor col row).fault = none := by simp only [Operation.fault, htranslate]
  have hbody (u : State) : (Operation.setCursor col row).body u = exec (.setAddress (0x40 * row + col)) u := by
    simp only [Operation.body, opSetCursor, htranslate, opSetAddress, cursorEntry_toNat hc hr]
  exact callOperation_eq_exec rfl hfault hbody hs

/-- Settles O38: inside the grid set_cursor is a SET_ADDRESS, outside it is rejected. -/
theorem setCursorSends : Obligations.SetCursorSends := by
  intro col row s hs hb
  by_cases h : col ≤ 15 ∧ row ≤ 1
  · obtain ⟨hc, hr⟩ := h
    have haddr : 0x40 * row + col ≤ 0x7F := by omega
    obtain ⟨t, hexec, ⟨hwords, htrace, hdelivered⟩, hhost, -, -⟩ :=
      setAddressSends (0x40 * row + col) { s with accepted := s.accepted ++ [.setCursor col row] } haddr hs hb
    rw [← setAddress_or_eq_add haddr] at hwords htrace hdelivered
    exact ⟨t, (callOperation_setCursor_inside hc hr hs).trans hexec,
      fun _ => ⟨⟨hwords, htrace, hdelivered⟩, hhost.accepted, hhost.faults⟩, fun hout => absurd ⟨hc, hr⟩ hout⟩
  · have hfault : (Operation.setCursor col row).fault = some (.cursorOutOfRange col row) := by
      simp only [Operation.fault, translateCursor_outside (by omega : col > 15 ∨ row > 1)]
    refine ⟨_, callOperation_rejects rfl hfault hs, fun hin => absurd hin h, fun _ => ?_⟩
    simp

/-- Settles O39: what SET_ADDRESS of the position's address does to the display. -/
theorem setCursorSetsTheAddress : Obligations.SetCursorSetsTheAddress := by
  intro col row s hs hb hc hr
  obtain ⟨t, hexec, -, -, hdisplay⟩ := setAddressSends (0x40 * row + col)
    { s with accepted := s.accepted ++ [.setCursor col row] } (by omega) hs hb
  exact ⟨t, (callOperation_setCursor_inside hc hr hs).trans hexec, hdisplay⟩

/-- Settles O46: the step takes the call, and send of the word is the instruction. -/
theorem stepRunsTheDecodedInstruction : Obligations.StepRunsTheDecodedInstruction := by
  intro s T i rest hs hp hd
  rw [step_takes_first hs hp]
  exact callOperation_eq_exec (op := .send T.rs T.byte) rfl rfl (opSend_of_decodeWord hd) hs

/-- A number that the decoder reads as an instruction is a 9-bit word, and the word is the instruction's (R80, R85). -/
theorem decodeTableWord_eq_some {nbits w : Nat} {i : Instr} (h : decodeTableWord nbits w = some i) :
    w % 2 ^ nbits < 2 ^ 9 ∧ decodeWord (TWord.ofBits (BitVec.ofNat 9 (w % 2 ^ nbits))) = .instr i := by
  unfold decodeTableWord at h
  split at h
  · rename_i hlt
    split at h
    · rename_i hd
      exact ⟨hlt, hd.trans (congrArg Decoded.instr (Option.some.inj h))⟩
    · cases h
  · cases h

/-- Settles O47: placing meets what a first call needs, so the step is exec of the decoded instruction, whose word is
the one placed. -/
theorem placedWordRunsNext : Obligations.PlacedWordRunsNext := by
  intro s nbits w i h
  obtain ⟨hlt, hd⟩ := decodeTableWord_eq_some h
  obtain ⟨hi, henc⟩ := encode_of_decodeWord hd
  rw [State.withFetchWord, if_pos hlt]
  generalize hT : TWord.ofBits (BitVec.ofNat 9 (w % 2 ^ nbits)) = T at hd henc
  have hstep := stepRunsTheDecodedInstruction (s.placeWord T) T i s.port rfl rfl hd
  obtain ⟨t, hexec, hsent, hhost, -, -⟩ := exec_sends (s := { s.placeWord T with
    port := s.port, accepted := s.accepted ++ [.send T.rs T.byte] }) hi rfl rfl rfl
  refine ⟨t, hstep.trans hexec, hsent.words, hhost.seq, hhost.port, ?_⟩
  rw [henc, ← hT, TWord.bits_ofBits, BitVec.toNat_ofNat, Nat.mod_eq_of_lt hlt]

end Sys2Proof.Machine
end

section
/-! The operations of several words: the initialization and print (`44_operations.md` R160, R167). -/

namespace Sys2Proof.Machine

/-- From SEQ idle and the boot requirement, an accepted operation is recorded and sends its words in order (R168). -/
theorem callOperation_accepts {op : Operation} (hr : op.refusal = none) (hf : op.fault = none) {s : State}
    (hs : s.seq = .idle) (hb : s.booted = true) :
    callOperation op s = .next (({ s with accepted := s.accepted ++ [op] } : State).sendAll op.words) := by
  rw [callOperation_sends hr hf hs hb, s.recordOperation_of_none hf]

/-- `k` sends have `k` times 53 events and `k` tails (R169). -/
theorem length_flatMap_sendEvents (v : LatchVariant) (t : Timing) (Ts : List TWord) :
    (Ts.flatMap (sendEvents v t)).length = Ts.length * (53 + (tailEvents v t).length) := by
  simp only [List.length_flatMap, sendEvents_length, List.map_const', List.sum_replicate, smul_eq_mul]

/-- The words of the initialization (R160). -/
theorem words_initializeDisplay : Operation.initializeDisplay.words =
    [⟨false, 0x38⟩, ⟨false, 0x01⟩, ⟨false, 0x02⟩, ⟨false, 0x0C⟩] := rfl

/-- Settles O35: the four words are those of the four instructions, and the lines hold the last one, whose RS and last
bit are low. -/
theorem initializeSendsFourWords : Obligations.InitializeSendsFourWords := by
  intro s hs hb
  have hcall := callOperation_accepts (op := .initializeDisplay) rfl rfl hs hb
  obtain ⟨hrs, hser, hsck, hlat, -, -⟩ :=
    State.sendAll_wires { s with accepted := s.accepted ++ [.initializeDisplay] }
      Operation.initializeDisplay.words hb (T := ⟨false, 0x0C⟩) rfl
  refine ⟨_, hcall, by simp [words_initializeDisplay], by simp [words_initializeDisplay], ?_, hrs, hser, hsck, hlat,
    by simpa using hs, by simp, by simp, by simp⟩
  rw [State.sendAll_trace, List.length_append, length_flatMap_sendEvents]
  cases Config.latchVariant <;> rfl

/-- The words of print are its characters with RS high, in order (R167). -/
theorem words_print (text : List Nat) :
    (Operation.print text).words = text.map (fun c => ⟨true, BitVec.ofNat 8 c⟩) :=
  List.map_map

theorem firstWide_eq_none {text : List Nat} (h : ∀ c ∈ text, c ≤ 255) : firstWide text = none := by
  simpa [firstWide] using h

/-- A text with a wide character has a first one (R167). -/
theorem exists_firstWide {text : List Nat} (h : ∃ c ∈ text, 255 < c) :
    ∃ c ∈ text, 255 < c ∧ firstWide text = some c := by
  have hsome : (firstWide text).isSome = true := by simpa [firstWide] using h
  obtain ⟨c, hc⟩ := Option.isSome_iff_exists.mp hsome
  have hwide : decide (255 < c) = true := List.find?_some (p := fun c => decide (255 < c)) hc
  exact ⟨c, List.mem_of_find?_eq_some hc, of_decide_eq_true hwide, hc⟩

/-- Settles O40: the sends are those of the characters' words, the last of which RS still holds; a wide character is
found before any of them. -/
theorem printSendsEachCharacter : Obligations.PrintSendsEachCharacter := by
  intro text s hs hb
  refine ⟨fun hnarrow => ?_, fun hwide => ?_⟩
  · have hcall := callOperation_accepts (op := .print text) (by simp [Operation.refusal, firstWide_eq_none hnarrow])
      rfl hs hb
    rw [words_print] at hcall
    refine ⟨_, hcall, by simp, by simp [List.flatMap_map], ?_, fun hne => ?_, fun he => by simp [he],
      by simpa using hs, by simp, by simp⟩
    · rw [State.sendAll_trace, List.length_append, length_flatMap_sendEvents, List.length_map]
      cases Config.latchVariant <;> rfl
    · have hlast := congrArg (Option.map fun c => (⟨true, BitVec.ofNat 8 c⟩ : TWord))
        (List.getLast?_eq_some_getLast hne)
      exact (State.sendAll_wires { s with accepted := s.accepted ++ [.print text] } _ hb
        (List.getLast?_map.trans hlast)).rs
  · obtain ⟨c, hmem, hc, hfirst⟩ := exists_firstWide hwide
    exact ⟨c, hmem, hc, by simp [callOperation, hs, Operation.refusal, hfirst]⟩

end Sys2Proof.Machine
end

section
/-! A run of operations (`44_operations.md` R170, R172). -/

namespace Sys2Proof.Machine

/-- A call that answers a next state has sent the operation's words, which for a rejected operation are none, and SEQ
is idle again (R168, R172). -/
theorem callOperation_appends {op : Operation} {s t : State} (hs : s.seq = .idle)
    (h : callOperation op s = .next t) :
    t.seq = .idle ∧ t.words = s.words ++ op.words ∧ t.trace = s.trace ++ op.events := by
  have answers := callAnswers_of_idle op hs
  rw [h] at answers
  generalize startOperation op s = started at answers
  cases answers with
  | rejects f hf => simp [hs, Operation.events, Operation.words_of_fault hf]
  | completes hf hw => simp [hs, Operation.events, hw]
  | sends hf hw hb => simp [hs, Operation.events]

/-- A run that answers a next state has had an answer to its first call and gone on from there. -/
theorem runOperations_cons_next {op : Operation} {ops : List Operation} {s t : State}
    (h : runOperations (op :: ops) s = .next t) :
    ∃ u, callOperation op s = .next u ∧ runOperations ops u = .next t := by
  unfold runOperations at h
  split at h
  · exact ⟨_, ‹_›, h⟩
  · cases h
  · cases h

/-- A run of two lists goes on with the second where the first has ended (R172). -/
theorem runOperations_append {p q : List Operation} {s t : State} (h : runOperations p s = .next t) :
    runOperations (p ++ q) s = runOperations q t := by
  induction p generalizing s with
  | nil => rw [List.nil_append, Host.Outcome.next.inj h]
  | cons op p ih =>
    obtain ⟨u, hu, hrest⟩ := runOperations_cons_next h
    rw [List.cons_append, runOperations, hu]
    exact ih hrest

/-- A run that answers a next state has sent the words of its operations in order, and SEQ is idle after it (R172). -/
theorem runOperations_appends {p : List Operation} {s t : State} (hs : s.seq = .idle)
    (h : runOperations p s = .next t) :
    t.seq = .idle ∧ t.words = s.words ++ p.flatMap Operation.words ∧
      t.trace = s.trace ++ p.flatMap Operation.events := by
  induction p generalizing s with
  | nil => simp [← Host.Outcome.next.inj h, hs]
  | cons op p ih =>
    obtain ⟨u, hu, hrest⟩ := runOperations_cons_next h
    obtain ⟨hseq, hwords, htrace⟩ := callOperation_appends hs hu
    obtain ⟨hseq', hwords', htrace'⟩ := ih hseq hrest
    exact ⟨hseq', by simp [hwords', hwords], by simp [htrace', htrace]⟩

/-- Settles O44: `runOperations_append` and `runOperations_appends`. -/
theorem runsCompose : Obligations.RunsCompose := by
  intro p q s t hs h
  obtain ⟨hseq, hwords, htrace⟩ := runOperations_appends hs h
  exact ⟨hseq, runOperations_append h, hwords, htrace⟩

end Sys2Proof.Machine
end

section
/-! The shift register's reaction to each event (`45_downstream_devices.md` R181 to R183). -/

namespace Sys2Proof.Machine

section Edges
variable {s : State}

/-! A rise of a line at each level it can have; the rise of LAT from low is `State.outAfter_high_of_low`. -/

theorem State.shiftAfter_high_of_low (h : s.sck = .is .L) : s.shiftAfter .H = s.srShift.push s.ser := by
  simp only [State.shiftAfter, h]

theorem State.shiftAfter_high_of_high (h : s.sck = .is .H) : s.shiftAfter .H = s.srShift := by
  simp only [State.shiftAfter, h]

theorem State.shiftAfter_high_of_unknown (h : s.sck = .unknown) : s.shiftAfter .H = SrBits.unknown := by
  simp only [State.shiftAfter, h]

theorem State.outAfter_high_of_high (h : s.lat = .is .H) : s.outAfter .H = s.srOut := by
  simp only [State.outAfter, h]

theorem State.outAfter_high_of_unknown (h : s.lat = .unknown) : s.outAfter .H = SrBits.unknown := by
  simp only [State.outAfter, h]

/-- Only raising the clock can move the shift stage (R181). -/
theorem State.perform_srShift_of_ne {e : Event} (he : e ≠ .write .sck .H) : (s.perform e).srShift = s.srShift := by
  cases e with
  | wait d => rfl
  | write line v =>
    cases line with
    | ser | lat | rs => rfl
    | sck =>
      cases v with
      | L => rfl
      | H => exact absurd rfl he

/-- Only raising the latch can move the output stage (R182). -/
theorem State.perform_srOut_of_ne {e : Event} (he : e ≠ .write .lat .H) : (s.perform e).srOut = s.srOut := by
  cases e with
  | wait d => rfl
  | write line v =>
    cases line with
    | ser | sck | rs => rfl
    | lat =>
      cases v with
      | L => rfl
      | H => exact absurd rfl he

end Edges

/-- Settles O10: a raised clock is an edge from low and none from high; no other event moves the shift stage. -/
theorem shiftStageMovesOnRisingClock : Obligations.ShiftStageMovesOnRisingClock := by
  intro s e hknown
  by_cases he : e = .write .sck .H
  · subst he
    cases hsck : s.sck with
    | unknown => exact absurd hsck (hknown rfl)
    | is v =>
      cases v with
      | L => exact State.shiftAfter_high_of_low hsck
      | H => exact State.shiftAfter_high_of_high hsck
  · rw [State.perform_srShift_of_ne he, if_neg fun h => he h.1]

/-- Settles O11: a raised latch is an edge from low and none from high; no other event moves the output stage. -/
theorem outputStageCommitsOnRisingLatch : Obligations.OutputStageCommitsOnRisingLatch := by
  intro s e hknown
  by_cases he : e = .write .lat .H
  · subst he
    cases hlat : s.lat with
    | unknown => exact absurd hlat (hknown rfl)
    | is v =>
      cases v with
      | L => exact State.outAfter_high_of_low hlat
      | H => exact State.outAfter_high_of_high hlat
  · rw [State.perform_srOut_of_ne he, if_neg fun h => he h.1]

/-- Settles O12: the pushed bit is the level of SER, and a rise from an unknown level is no known edge. -/
theorem unknownLevelsSpread : Obligations.UnknownLevelsSpread := by
  refine fun s => ⟨fun hser hsck => ?_, State.shiftAfter_high_of_unknown, State.outAfter_high_of_unknown⟩
  rw [State.perform_sck_srShift, State.shiftAfter_high_of_low hsck, hser]
  rfl

end Sys2Proof.Machine
end

section
/-! What the display latches over the events of one send (`45_downstream_devices.md` R188, R189). -/

namespace Sys2Proof.Machine

/-! The samples of a list of events, part by part. -/

theorem latchedSamples_append (σ : StrobeSampling) (s : State) (es fs : List Event) :
    latchedSamples σ s (es ++ fs) = latchedSamples σ s es ++ latchedSamples σ (es.foldl State.perform s) fs := by
  induction es generalizing s with
  | nil => rfl
  | cons e es ih =>
    simp only [List.cons_append, latchedSamples, List.foldl_cons, ih]
    split <;> rfl

/-- Only a write of LAT makes the display sample (R188). -/
theorem strobeSample_of_not_writes_lat {e : Event} (he : e.writes .lat = false) (σ : StrobeSampling) (s : State) :
    strobeSample σ s e = none := by
  cases e with
  | wait d => cases σ <;> rfl
  | write line v =>
    cases line with
    | ser | sck | rs => cases σ <;> rfl
    | lat => cases he

theorem latchedSamples_of_not_writes_lat {es : List Event} (hes : ∀ e ∈ es, e.writes .lat = false)
    (σ : StrobeSampling) (s : State) : latchedSamples σ s es = [] := by
  induction es generalizing s with
  | nil => rfl
  | cons e es ih =>
    simp only [latchedSamples, strobeSample_of_not_writes_lat (hes e (by simp))]
    exact ih (fun f hf => hes f (by simp [hf])) _

/-! The lines after events that do not write them. -/

theorem State.perform_of_not_writes_lat (s : State) {e : Event} (he : e.writes .lat = false) :
    (s.perform e).lat = s.lat ∧ (s.perform e).srOut = s.srOut := by
  cases e with
  | wait d => exact ⟨rfl, rfl⟩
  | write line v =>
    cases line with
    | ser | sck | rs => exact ⟨rfl, rfl⟩
    | lat => cases he

theorem State.perform_of_not_writes_rs (s : State) {e : Event} (he : e.writes .rs = false) :
    (s.perform e).rs = s.rs := by
  cases e with
  | wait d => rfl
  | write line v =>
    cases line with
    | ser | sck | lat => rfl
    | rs => cases he

/-- Events that write neither LAT nor RS leave both lines and the output stage. -/
theorem foldl_perform_frame {es : List Event} (hes : ∀ e ∈ es, e.writes .lat = false ∧ e.writes .rs = false)
    (s : State) : (es.foldl State.perform s).lat = s.lat ∧ (es.foldl State.perform s).rs = s.rs ∧
      (es.foldl State.perform s).srOut = s.srOut := by
  induction es generalizing s with
  | nil => exact ⟨rfl, rfl, rfl⟩
  | cons e es ih =>
    obtain ⟨hwlat, hwrs⟩ := hes e (by simp)
    obtain ⟨hlat, hout⟩ := s.perform_of_not_writes_lat hwlat
    obtain ⟨ihlat, ihrs, ihout⟩ := ih (fun f hf => hes f (by simp [hf])) (s.perform e)
    exact ⟨ihlat.trans hlat, ihrs.trans (s.perform_of_not_writes_rs hwrs), ihout.trans hout⟩

/-- The events of the shift steps push the bits that the steps push, whatever time the waits request (R110, R181). -/
theorem foldl_perform_bitEvents_srShift (t : Timing) (b : Byte) (order : BitOrder) (is : List Nat) {s : State}
    (h : s.sck = .is .L) :
    ((is.flatMap fun i => bitEvents t (bitLevel b (bitIndex order i))).foldl State.perform s).srShift =
      is.foldl (fun r i => r.push (.is (bitLevel b (bitIndex order i)))) s.srShift := by
  induction is generalizing s with
  | nil => rfl
  | cons i is ih =>
    have hbit (v : Level) : ((bitEvents t v).foldl State.perform s).srShift = s.srShift.push (.is v) :=
      s.bitCycle_srShift v h
    rw [List.flatMap_cons, List.foldl_append, ih rfl, hbit, List.foldl_cons]

theorem foldl_perform_shiftOutEvents_srShift (t : Timing) (b : Byte) {s : State} (h : s.sck = .is .L) :
    ((shiftOutEvents t b .msbFirst).foldl State.perform s).srShift = SrBits.ofByte b :=
  foldl_perform_bitEvents_srShift t b .msbFirst _ h

/-! The latch pulse. -/

/-- What the bus holds at the instant of a latch pulse that the display samples at: the stage just committed, or the
one before the commit (R189). -/
def State.busAtStrobe (s : State) : StrobeSampling → SrBits
  | .falling => s.srShift
  | .risingBeforeCommit => s.srOut

/-- A pulse from low makes the display sample once. -/
theorem latchedSamples_latchPulseEvents {s : State} (h : s.lat = .is .L) (σ : StrobeSampling) (t : Timing) :
    latchedSamples σ s (latchPulseEvents t) = [⟨s.rs, s.busAtStrobe σ⟩] := by
  cases σ <;> simp [latchPulseEvents, latchedSamples, strobeSample, State.busAtStrobe, State.outAfter_high_of_low, h]

/-- After a pulse from low both stages hold the shift stage's byte, so that the next sample is that byte at either
instant. -/
theorem busAtStrobe_after_latchPulseEvents {s : State} (h : s.lat = .is .L) (σ : StrobeSampling) (t : Timing) :
    ((latchPulseEvents t).foldl State.perform s).busAtStrobe σ = s.srShift := by
  cases σ with
  | falling => rfl
  | risingBeforeCommit => exact State.outAfter_high_of_low h

theorem latchedSamples_two_latchPulses {s : State} (h : s.lat = .is .L) (σ : StrobeSampling) (t : Timing) :
    latchedSamples σ s (latchPulseEvents t ++ latchPulseEvents t) =
      [⟨s.rs, s.busAtStrobe σ⟩, ⟨s.rs, s.srShift⟩] := by
  rw [latchedSamples_append, latchedSamples_latchPulseEvents h, latchedSamples_latchPulseEvents rfl,
    busAtStrobe_after_latchPulseEvents h]
  rfl

/-- Before the first pulse of a send the display samples nothing, and then RS and the shift stage hold the word while
the output stage still holds the previous byte. -/
theorem latchedSamples_sendEvents {s : State} (hb : s.booted = true) (t : Timing) (T : TWord) :
    ∃ u : State, u.lat = .is .L ∧ u.rs = .is (Level.ofBool T.rs) ∧ u.srShift = SrBits.ofByte T.byte ∧
      u.srOut = s.srOut ∧ ∀ σ v, latchedSamples σ s (sendEvents v t T) =
        latchedSamples σ u (latchPulseEvents t ++ tailEvents v t) := by
  obtain ⟨hsck, hlat⟩ := s.booted_iff.mp hb
  let r := s.perform (.write .rs (Level.ofBool T.rs))
  obtain ⟨hulat, hurs, huout⟩ := foldl_perform_frame (shiftOutEvents_writes t T.byte .msbFirst) r
  refine ⟨(shiftOutEvents t T.byte .msbFirst).foldl State.perform r, hulat.trans hlat, hurs,
    foldl_perform_shiftOutEvents_srShift t T.byte (s := r) hsck, huout, fun σ v => ?_⟩
  have hrs : strobeSample σ s (.write .rs (Level.ofBool T.rs)) = none := strobeSample_of_not_writes_lat rfl σ s
  have hshift : latchedSamples σ r (shiftOutEvents t T.byte .msbFirst) = [] :=
    latchedSamples_of_not_writes_lat (fun e he => (shiftOutEvents_writes t T.byte .msbFirst e he).1) σ r
  simp only [sendEvents, latchedSamples, hrs, List.append_assoc]
  rw [latchedSamples_append, hshift, List.nil_append]

/-- Settles O59: a single send has the one pulse that commits the word and a wait, a double send a second pulse. -/
theorem latchedByStrobeSampling : Obligations.LatchedByStrobeSampling := by
  intro t T s hb old new
  obtain ⟨u, hlat, hrs, hshift, hout, hsend⟩ := latchedSamples_sendEvents hb t T
  have hsingle (σ : StrobeSampling) :
      latchedSamples σ s (sendEvents .single t T) = [⟨.is (Level.ofBool T.rs), u.busAtStrobe σ⟩] := by
    have htail : ∀ e ∈ tailEvents .single t, e.writes .lat = false := by simp [tailEvents, Event.writes]
    rw [hsend, latchedSamples_append, latchedSamples_latchPulseEvents hlat, latchedSamples_of_not_writes_lat htail, hrs]
    rfl
  have hdouble (σ : StrobeSampling) :
      latchedSamples σ s (sendEvents .double t T) = [⟨.is (Level.ofBool T.rs), u.busAtStrobe σ⟩, new] := by
    rw [hsend, tailEvents, latchedSamples_two_latchPulses hlat, hrs, hshift]
  rw [hsingle, hsingle, hdouble, hdouble]
  simp only [State.busAtStrobe, hshift, hout, old, new, and_self]

end Sys2Proof.Machine
end

section
/-! Text printed within a row (`45_downstream_devices.md` R190, `20_memory.md` R51, R55). -/

namespace Sys2Proof.Machine

/-- The text stands at consecutive addresses from `base` on, and every other byte is as before. -/
structure TextStoredAt (text : List Nat) (base : Nat) (m m' : Memory) : Prop where
  inside : ∀ j < text.length, Memory.read m' (base + j) = (text[j]?).map (fun ch => BitVec.ofNat 8 ch)
  outside : ∀ a, (a < base ∨ base + text.length ≤ a) → Memory.read m' a = Memory.read m a

/-- One character stored, and the rest of the text after it. -/
theorem TextStoredAt.cons {ch base : Nat} {text : List Nat} {m m' : Memory}
    (h : TextStoredAt text (base + 1) (Memory.write m base (BitVec.ofNat 8 ch)) m') :
    TextStoredAt (ch :: text) base m m' where
  inside j hj := by
    cases j with
    | zero => simp [h.outside base (by omega), Memory.read_write]
    | succ j =>
      rw [Nat.add_comm j 1, ← Nat.add_assoc, h.inside j (by simpa using hj), Nat.add_comm 1 j, List.getElem?_cons_succ]
  outside a ha := by
    rw [List.length_cons] at ha
    rw [h.outside a (by omega), Memory.read_write, if_neg (by omega)]

/-- A character received with AC at a column of a row is stored there, and AC moves on but from the last column. -/
theorem Display.receive_writeChar_at {row c : Nat} (hr : row ≤ 1) (hc : c ≤ 15) {d : Display}
    (hd : d.progress = .done) (hac : d.ac = .is (BitVec.ofNat 7 (0x40 * row + c))) (b : Byte) :
    d.receive (encode (.writeChar b)) =
      { d with ac := if c = 15 then .unknown else .is (BitVec.ofNat 7 (0x40 * row + c + 1))
               ddram := Memory.write d.ddram (0x40 * row + c) b } := by
  have haddr : (BitVec.ofNat 7 (0x40 * row + c)).toNat = 0x40 * row + c := by
    rw [BitVec.toNat_ofNat]
    omega
  have hcell : isCell (BitVec.ofNat 7 (0x40 * row + c)) = true := by
    rw [isCell_iff, haddr]
    omega
  have hlast : (0x40 * row + c = 0x0F ∨ 0x40 * row + c = 0x4F) ↔ c = 15 := by omega
  rw [Display.receive_encode_done rfl hd, Display.act, Display.storeChar_of_cell hac hcell, acAfter_of_cell hcell, haddr,
    BitVec.ofNat_add _ 1]
  simp only [hlast]
  rfl

/-- Characters sent to a configured display from a column on store the text there while they stay within the row, and
AC is after the last one except past the last column. -/
theorem Display.receive_print {row : Nat} (hr : row ≤ 1) {text : List Nat} {c : Nat} (hlen : c + text.length ≤ 16)
    {d : Display} (hd : d.progress = .done) (hac : c ≤ 15 → d.ac = .is (BitVec.ofNat 7 (0x40 * row + c))) :
    TextStoredAt text (0x40 * row + c) d.ddram ((Operation.print text).words.foldl Display.receive d).ddram ∧
      (c + text.length ≤ 15 → ((Operation.print text).words.foldl Display.receive d).ac =
        .is (BitVec.ofNat 7 (0x40 * row + c + text.length))) := by
  induction text generalizing c d with
  | nil => exact ⟨⟨fun j hj => absurd hj j.not_lt_zero, fun _ _ => rfl⟩, hac⟩
  | cons ch text ih =>
    rw [List.length_cons] at hlen
    have hc : c ≤ 15 := by omega
    have hfirst := Display.receive_writeChar_at hr hc hd (hac hc) (BitVec.ofNat 8 ch)
    have hwords : (Operation.print (ch :: text)).words =
        encode (.writeChar (BitVec.ofNat 8 ch)) :: (Operation.print text).words := rfl
    rw [hwords, List.foldl_cons, hfirst, List.length_cons, Nat.add_comm text.length 1,
      ← Nat.add_assoc, ← Nat.add_assoc]
    obtain ⟨hstored, hlast⟩ := ih (c := c + 1) (by omega) (d := { d with
        ac := if c = 15 then .unknown else .is (BitVec.ofNat 7 (0x40 * row + c + 1))
        ddram := Memory.write d.ddram (0x40 * row + c) (BitVec.ofNat 8 ch) }) hd (fun h => if_neg (by omega))
    exact ⟨hstored.cons, hlast⟩

/-- set_cursor inside the grid leaves the block ready for the next operation and AC of a configured display at the
position's address (R166). -/
theorem callOperation_setCursor_display {c row : Nat} (hc : c ≤ 15) (hr : row ≤ 1) {s : State} (hs : s.seq = .idle)
    (hb : s.booted = true) (hd : s.display.progress = .done) :
    ∃ u, callOperation (.setCursor c row) s = .next u ∧ u.seq = .idle ∧ u.booted = true ∧
      u.display = { s.display with ac := .is (BitVec.ofNat 7 (0x40 * row + c)) } := by
  have hi : (Instr.setAddress (0x40 * row + c)).wellFormed = true :=
    decide_eq_true (by simp only [Config.maxAddr]; omega)
  exact ⟨_, (callOperation_setCursor_inside hc hr hs).trans (exec_eq_send hi hs hb), (State.send_seq _ _).trans hs,
    State.send_booted _ _, (State.send_display _ _).trans (Display.receive_encode_done hi hd)⟩

/-- A run whose first call has an answer goes on from there (R170). -/
theorem runOperations_cons {op : Operation} {ops : List Operation} {s t : State} (h : callOperation op s = .next t) :
    runOperations (op :: ops) s = runOperations ops t := by
  rw [runOperations, h]

/-- Settles O43: set_cursor leaves AC at the position, and the characters of print are stored from there on. -/
theorem printLandsWithinTheRow : Obligations.PrintLandsWithinTheRow := by
  intro c row text s hs hb hd hr hc hlen hnarrow
  obtain ⟨u, hcursor, hseq, hbooted, hdisplay⟩ := callOperation_setCursor_display hc hr hs hb hd
  have hprint := callOperation_accepts (op := .print text) (by simp [Operation.refusal, firstWide_eq_none hnarrow]) rfl
    hseq hbooted
  obtain ⟨hstored, hac⟩ := Display.receive_print hr hlen (d := u.display) (by rw [hdisplay, hd])
    (fun _ => by rw [hdisplay])
  refine ⟨_, (runOperations_cons hcursor).trans (runOperations_cons hprint), ?_⟩
  rw [State.sendAll_display]
  refine ⟨hstored.inside, fun a ha => ?_, hac⟩
  rw [hstored.outside a ha, hdisplay]

end Sys2Proof.Machine
end

section
/-! The two faults of the hardware (`60_exceptions.md` R200 to R207): which arguments raise one, what its rejection
changes, and that no step stops with a fault. -/

namespace Sys2Proof.Machine

/-! The faults that arguments raise (R201 to R203, R206). -/

/-- set_address checks its argument against the last address (R202). -/
theorem fault_setAddress_eq_some_iff (addr : Nat) (f : HostFault) :
    (Operation.setAddress addr).fault = some f ↔ addr > 0x7F ∧ f = .addressOutOfRange addr := by
  rw [Operation.fault, Option.ite_none_right_eq_some, Option.some.injEq, eq_comm (a := f)]
  rfl

/-- set_cursor raises what the translation of its position raises (R201). -/
theorem fault_setCursor_eq_some_iff (col row : Nat) (f : HostFault) :
    (Operation.setCursor col row).fault = some f ↔ (col > 15 ∨ row > 1) ∧ f = .cursorOutOfRange col row := by
  by_cases h : col > 15 ∨ row > 1
  · simp [Operation.fault, translateCursor_outside h, h, eq_comm]
  · simp [Operation.fault, translateCursor_inside (col := col) (row := row) (by omega) (by omega), h]

/-- Settles O31: the two operations that check their arguments, and the seven whose arguments raise no fault. -/
theorem onlyTwoOperationsReject : Obligations.OnlyTwoOperationsReject := by
  intro op f
  cases op with
  | setAddress addr => simp [fault_setAddress_eq_some_iff]
  | setCursor col row => simp [fault_setCursor_eq_some_iff, and_assoc]
  | initializeDisplay | clear | home | powerControl | shift | print | send => simp [Operation.fault]

/-! The rejection (R200, R207). -/

/-- Arguments that raise a fault do not meet the model's boundary (R204). -/
theorem refusal_of_fault {op : Operation} {f : HostFault} (hf : op.fault = some f) : op.refusal = none := by
  obtain ⟨col, row, rfl, -, -⟩ | ⟨addr, rfl, -, -⟩ := (onlyTwoOperationsReject op f).mp hf <;> rfl

/-- From SEQ idle, a rejection delivers the fault and records the operation, and changes nothing else (R200). -/
theorem callOperation_of_fault {op : Operation} {f : HostFault} (hf : op.fault = some f) {s : State}
    (hs : s.seq = .idle) :
    callOperation op s = .next { s with faults := s.faults ++ [f], rejected := s.rejected ++ [op] } := by
  rw [callOperation_rejects (refusal_of_fault hf) hf hs, s.recordOperation_of_some hf]
  rfl

/-- Settles O29: the instruction and the operation check the address first; the fault of set_cursor is the other one. -/
theorem addressOutOfRangeRejected : Obligations.AddressOutOfRangeRejected := by
  refine ⟨fun addr s ha hs => ⟨?_, ?_, rfl⟩, fun col row addr hf => ?_⟩
  · exact (exec_setAddress addr hs).trans (if_pos ha)
  · exact callOperation_of_fault ((fault_setAddress_eq_some_iff addr _).mpr ⟨ha, rfl⟩) hs
  · exact nomatch ((fault_setCursor_eq_some_iff col row _).mp hf).2

/-- Settles O30: a position outside the grid raises CursorOutOfRange, and the call is rejected. -/
theorem cursorOutOfRangeRejected : Obligations.CursorOutOfRangeRejected :=
  fun col row _ hout hs => ⟨callOperation_of_fault ((fault_setCursor_eq_some_iff col row _).mpr ⟨hout, rfl⟩) hs, rfl⟩

/-- Settles O32: the rejection is the answer to the first call, and the run goes on from it. -/
theorem runGoesOnAfterRejection : Obligations.RunGoesOnAfterRejection :=
  fun _ _ _ _ hf hs => runOperations_cons (callOperation_of_fault hf hs)

/-! No step faults (R169, R203). -/

/-- No answer of a call is a fault of the machine: the hardware's faults are delivered in a next state (R207). -/
theorem CallAnswers.ne_fault {op : Operation} {s : State} {whole started : Host.Outcome State Fault Refusal}
    (answers : CallAnswers op s whole started) (f : Fault) : whole ≠ .fault f ∧ started ≠ .fault f := by
  cases answers with
  | refuses | rejects | completes | sends => simp

/-- A call taken from SEQ idle answers no fault, in either pace. -/
theorem takeCall_ne_fault (c : Call) {s : State} (hs : s.seq = .idle) (f : Fault) : takeCall c s ≠ .fault f := by
  obtain ⟨op, pace⟩ := c
  obtain ⟨hwhole, hstarted⟩ := (callAnswers_of_idle op hs).ne_fault f
  cases pace with
  | whole => exact hwhole
  | eventwise => exact hstarted

/-- Settles O56: a call answers no fault, and during an operation the invariant has an event left to perform. -/
theorem noStepFaults : Obligations.NoStepFaults := by
  intro s f hinv
  cases hs : s.seq with
  | idle =>
    rw [step_idle hs, idleStep]
    split
    · exact nofun
    next c rest _ => exact takeCall_ne_fault c (s := { s with port := rest }) hs f
  | pos n =>
    obtain ⟨hn, -⟩ := (sequenced_pos hs).mp hinv.sequenced
    rw [step_pos hs, stepEvent_of_lt hn]
    exact nofun

end Sys2Proof.Machine
end

section
/-! When an operation or an instruction may start (`10_state.md` R25, `70_reset_and_hazards.md` R230, R232, R238), and
the display after the initialization (R234; log 12, log 15, log 26). -/

namespace Sys2Proof.Machine

/-! The display after the initialization (R160, R234). -/

/-- The display that the initialization leaves: configured, and nothing known of AC, DDRAM or a shift. -/
def Display.initialized : Display :=
  { progress := .done, busWidth := .is .eightBit, displayLines := .is .two, font := .is .dots5x8,
    displayOn := .is true, cursorOn := .is false, blinkOn := .is false,
    ac := .unknown, shiftMoves := [], ddram := Memory.unknown }

/-- On a configured display each word of a list of well-formed instructions has its instruction's effect. -/
theorem Display.receive_encodes_done {is : List Instr} (hi : ∀ i ∈ is, i.wellFormed = true) {d : Display}
    (hd : d.progress = .done) : (is.map encode).foldl Display.receive d = is.foldl Display.act d := by
  induction is generalizing d with
  | nil => rfl
  | cons i is ih =>
    rw [List.map_cons, List.foldl_cons, List.foldl_cons, Display.receive_encode_done (hi i (by simp)) hd]
    exact ih (fun j hj => hi j (by simp [hj])) ((d.act_progress i).trans hd)

/-- The effects of the four instructions on a configured display set every register anew. -/
theorem Display.act_initializeInstrs {d : Display} (hd : d.progress = .done) :
    initializeInstrs.foldl Display.act d = Display.initialized := by
  simp [initializeInstrs, Display.act, Display.clearOrHome, Display.initialized, hd]

/-- The words of the initialization leave every display alike: a configured one has all its registers set anew, and any
other forgets what it held on the first word. -/
theorem Display.receive_initializeDisplay (d : Display) :
    Operation.initializeDisplay.words.foldl Display.receive d = Display.initialized := by
  by_cases hd : d.progress = .done
  · exact (Display.receive_encodes_done (is := initializeInstrs) (by decide) hd).trans
      (Display.act_initializeInstrs hd)
  · have hfirst : d.receive (encode .functionSet) =
        { Display.unknown.act .functionSet with progress := .functionSet } :=
      Display.receive_begins (decodeWord_encode rfl) (InitProgress.after_functionSet hd)
    rw [Operation.words, initializeInstrs, List.map_cons, List.foldl_cons, hfirst]
    rfl

/-- Settles O36: the call sends its words, and the display that has received them is `Display.initialized`. -/
theorem initializeConfiguresTheDisplay : Obligations.InitializeConfiguresTheDisplay := by
  intro s hs hb
  refine ⟨_, callOperation_accepts (op := .initializeDisplay) rfl rfl hs hb, ?_⟩
  rw [State.sendAll_display, Display.receive_initializeDisplay]
  exact ⟨rfl, rfl, rfl, rfl, rfl, rfl, rfl, fun _ => rfl, rfl, rfl⟩

/-! What starts, and from where (R25, R230, R232, R238). -/

/-- A call performed whole starts only from SEQ idle (R238). -/
theorem callOperation_in_progress (op : Operation) {s : State} (hs : s.seq ≠ .idle) :
    callOperation op s = .refused .operationInProgress :=
  if_neg hs

/-- A call started eventwise starts only from SEQ idle (R238). -/
theorem startOperation_in_progress (op : Operation) {s : State} (hs : s.seq ≠ .idle) :
    startOperation op s = .refused .operationInProgress :=
  if_neg hs

/-- Settles O33: instruction and operation, in either pace, check SEQ first. -/
theorem nothingStartsInProgress : Obligations.NothingStartsInProgress := by
  intro n s hpos
  have hs : s.seq ≠ .idle := fun hidle => nomatch hpos.symm.trans hidle
  exact ⟨fun i => exec_in_progress i hs,
    fun op => ⟨callOperation_in_progress op hs, startOperation_in_progress op hs⟩⟩

/-- A transmission from SEQ idle is refused while the boot requirement is not met (R232; log 2). -/
theorem transmit_unbooted (T : TWord) {s : State} (hs : s.seq = .idle) (hb : ¬ s.booted = true) :
    transmit T s = .refused .bootRequirement := by
  rw [transmit, if_pos hs, if_neg hb]

/-- A well-formed instruction from SEQ idle is refused while SCK or LAT is not known to be low (R232; log 2). -/
theorem exec_unbooted {i : Instr} (hi : i.wellFormed = true) {s : State} (hs : s.seq = .idle)
    (hlow : s.sck ≠ .is .L ∨ s.lat ≠ .is .L) : exec i s = .refused .bootRequirement := by
  rw [exec_wellFormed hi]
  exact transmit_unbooted _ hs (by rwa [s.booted_iff, not_and_or])

/-- Settles O34: `exec_unbooted`, and at reset SCK is unknown (R33). -/
theorem unbootedSendRefused : Obligations.UnbootedSendRefused :=
  ⟨fun _ _ hi hs hlow => exec_unbooted hi hs hlow, fun _ hi => exec_unbooted hi rfl (.inl nofun)⟩

/-- Settles O48: with no call in the port there is nothing to take. -/
theorem idleBlockWaits : Obligations.IdleBlockWaits := by
  intro s hs hp
  rw [step_idle hs, idleStep, hp]

end Sys2Proof.Machine
end

section
/-! The hazards of the lines over the events of an operation (`70_reset_and_hazards.md` R236, R237, R239). Each part of
a send is followed from the line write before it to its own last one, whatever comes after. -/

namespace Sys2Proof.Machine

section Disciplined
variable {t : Timing} {es : List Event}

/-! One event. -/

/-- A wait adds to the time since the last line write. -/
theorem disciplinedFrom_wait (before : Option (LineName × Level)) (waited : Nat) (d : Duration) :
    disciplinedFrom t before waited (.wait d :: es) = disciplinedFrom t before (waited + d.inUs) es := by
  cases before <;> rfl

/-- A line write for which the required wait has passed. -/
theorem disciplinedFrom_write {before : LineName × Level} {n : LineName} {v : Level} {gap waited : Nat}
    (hgap : leastGap t before (n, v) = some gap) (hwait : gap ≤ waited) :
    disciplinedFrom t (some before) waited (.write n v :: es) = disciplinedFrom t (some (n, v)) 0 es := by
  simp only [disciplinedFrom, hgap, hwait, decide_true, Bool.true_and]

/-- A line write for which the required wait has passed, and the wait after it. -/
theorem disciplinedFrom_write_wait {before : LineName × Level} {n : LineName} {v : Level} {gap waited : Nat}
    (hgap : leastGap t before (n, v) = some gap) (hwait : gap ≤ waited) (k : Nat) :
    disciplinedFrom t (some before) waited (.write n v :: .wait (.us k) :: es) =
      disciplinedFrom t (some (n, v)) k es := by
  rw [disciplinedFrom_write hgap hwait, disciplinedFrom_wait, Nat.zero_add, Duration.inUs]

/-! The parts of a send (R130). -/

/-- A bit cycle that may write SER ends one bit time after the fall of SCK (R236). -/
theorem disciplinedFrom_bitEvents {before : LineName × Level} {v : Level} {gap waited : Nat}
    (hgap : leastGap t before (.ser, v) = some gap) (hwait : gap ≤ waited) :
    disciplinedFrom t (some before) waited (bitEvents t v ++ es) =
      disciplinedFrom t (some (.sck, .L)) t.tBitUs es := by
  simp only [bitEvents, List.cons_append, List.nil_append]
  rw [disciplinedFrom_write_wait hgap hwait, disciplinedFrom_write_wait rfl le_rfl,
    disciplinedFrom_write_wait rfl le_rfl]

/-- Bit cycles may follow one another. -/
theorem disciplinedFrom_bitCycles (level : Nat → Level) (is : List Nat) :
    disciplinedFrom t (some (.sck, .L)) t.tBitUs (is.flatMap (fun i => bitEvents t (level i)) ++ es) =
      disciplinedFrom t (some (.sck, .L)) t.tBitUs es := by
  induction is with
  | nil => rfl
  | cons i is ih => rw [List.flatMap_cons, List.append_assoc, disciplinedFrom_bitEvents rfl le_rfl, ih]

/-- shift_out may follow the write of RS at once (R237). -/
theorem disciplinedFrom_shiftOutEvents (rs : Level) (b : Byte) (order : BitOrder) :
    disciplinedFrom t (some (.rs, rs)) 0 (shiftOutEvents t b order ++ es) =
      disciplinedFrom t (some (.sck, .L)) t.tBitUs es := by
  rw [shiftOutEvents, List.flatMap_cons, List.append_assoc, disciplinedFrom_bitEvents rfl le_rfl,
    disciplinedFrom_bitCycles (fun i => bitLevel b (bitIndex order i))]

/-- A latch pulse that may begin holds each of its phases for a latch time (R239). -/
theorem disciplinedFrom_latchPulseEvents {before : LineName × Level} {gap waited : Nat}
    (hgap : leastGap t before (.lat, .H) = some gap) (hwait : gap ≤ waited) :
    disciplinedFrom t (some before) waited (latchPulseEvents t ++ es) =
      disciplinedFrom t (some (.lat, .L)) t.tLatchUs es := by
  simp only [latchPulseEvents, List.cons_append, List.nil_append]
  rw [disciplinedFrom_write_wait hgap hwait, disciplinedFrom_write_wait rfl le_rfl]

/-- At least a latch time has passed since the fall of LAT when the tail of send is over, in either variant. -/
theorem exists_disciplinedFrom_tailEvents (v : LatchVariant) (t : Timing) (es : List Event) :
    ∃ waited, t.tLatchUs ≤ waited ∧ disciplinedFrom t (some (.lat, .L)) t.tLatchUs (tailEvents v t ++ es) =
      disciplinedFrom t (some (.lat, .L)) waited es := by
  cases v with
  | single => exact ⟨t.tLatchUs + (Duration.ms t.tSettleMs).inUs, Nat.le_add_right _ _, disciplinedFrom_wait _ _ _⟩
  | double => exact ⟨t.tLatchUs, le_rfl, disciplinedFrom_latchPulseEvents rfl le_rfl⟩

end Disciplined

/-! The sends of an operation. -/

/-- A word may start: no line has been written, or a latch time has passed since the fall of LAT (R237, R239). -/
inductive WordMayStart (t : Timing) : Option (LineName × Level) → Nat → Prop
  | first (waited : Nat) : WordMayStart t none waited
  | afterLatch {waited : Nat} (h : t.tLatchUs ≤ waited) : WordMayStart t (some (.lat, .L)) waited

/-- Where a word may start, RS may be written. -/
theorem WordMayStart.write_rs {t : Timing} {before : Option (LineName × Level)} {waited : Nat}
    (h : WordMayStart t before waited) (v : Level) (es : List Event) :
    disciplinedFrom t before waited (.write .rs v :: es) = disciplinedFrom t (some (.rs, v)) 0 es := by
  cases h with
  | first => rfl
  | afterLatch hwait => exact disciplinedFrom_write rfl hwait

/-- A send that may start respects the hazards, and leaves a state of the lines in which the next word may start. -/
theorem WordMayStart.send {t : Timing} {before : Option (LineName × Level)} {waited : Nat}
    (h : WordMayStart t before waited) (v : LatchVariant) (T : TWord) (es : List Event) :
    ∃ before' waited', WordMayStart t before' waited' ∧
      disciplinedFrom t before waited (sendEvents v t T ++ es) = disciplinedFrom t before' waited' es := by
  obtain ⟨waited', hwait, htail⟩ := exists_disciplinedFrom_tailEvents v t es
  refine ⟨some (.lat, .L), waited', .afterLatch hwait, ?_⟩
  rw [sendEvents, List.cons_append, h.write_rs, List.append_assoc, List.append_assoc, disciplinedFrom_shiftOutEvents,
    disciplinedFrom_latchPulseEvents rfl le_rfl, htail]

/-- The sends of several words, one after the other, respect the hazards. -/
theorem WordMayStart.sends {t : Timing} {before : Option (LineName × Level)} {waited : Nat}
    (h : WordMayStart t before waited) (v : LatchVariant) (Ts : List TWord) :
    disciplinedFrom t before waited (Ts.flatMap (sendEvents v t)) = true := by
  induction Ts generalizing before waited with
  | nil => cases h <;> rfl
  | cons T Ts ih =>
    obtain ⟨before', waited', h', hsend⟩ := h.send v T (Ts.flatMap (sendEvents v t))
    rw [List.flatMap_cons, hsend]
    exact ih h'

/-- Settles O53: a call answered from SEQ idle appends the events of the operation's sends, and from any other it is
refused. -/
theorem operationsRespectLineHazards : Obligations.OperationsRespectLineHazards := by
  intro op s t h
  have hs : s.seq = .idle := by
    by_contra hbusy
    exact nomatch (callOperation_in_progress op hbusy).symm.trans h
  obtain ⟨-, -, htrace⟩ := callOperation_appends hs h
  exact ⟨op.events, htrace, (WordMayStart.first 0).sends Config.latchVariant op.words⟩

end Sys2Proof.Machine
end

section
/-! The words written out from the field tables (`30_encoding.md` R82, `95_test_vectors.md` B4). -/

namespace Sys2Proof

/-- Settles O1: each of the nine words is the encoder's word of its instruction, so the decoder reads the instruction
back, and the bytes of the other two fail every test of the decoder. -/
theorem specWordsDecode : Obligations.SpecWordsDecode :=
  ⟨decodeOfEncode .functionSet rfl,
    decodeOfEncode .clear rfl,
    decodeOfEncode .home rfl,
    decodeOfEncode (.powerControl true true false) rfl,
    decodeOfEncode (.shift .cursor .right) rfl,
    decodeOfEncode (.shift .display .left) rfl,
    decodeOfEncode (.setAddress 0x45) rfl,
    decodeOfEncode (.writeChar 0x41) rfl,
    decodeOfEncode (.writeChar 0x38) rfl,
    (decodeWord_eq_reserved_iff false 0x03).mpr (by decide),
    (decodeWord_eq_reserved_iff false 0x39).mpr (by decide)⟩

end Sys2Proof
end
